-- ==== Sys2Proof/Word.lean ====
section
/-! DEFINITION. The word types of the YACHIP-8 core: bytes, 16-bit words, 12-bit addresses and register numbers
(00_scope.md R9 to R12). Every value is an unsigned number of a stated width. -/

namespace Sys2Proof

/-- One byte: a memory byte, a V register, a timer or a keypad cell (00_scope.md R9). -/
abbrev Byte := BitVec 8

/-- A 16-bit value: an instruction word, I, PC or a stack entry (00_scope.md R9). -/
abbrev Word := BitVec 16

/-- The 12-bit address field `nnn` (00_scope.md R11). -/
abbrev Addr12 := BitVec 12

/-- The number of one of the sixteen registers V0 to VF (00_scope.md R11, 10_state.md R21). -/
abbrev RegIndex := Fin 16

/-- The number of one of the sixteen keys (10_state.md R33). -/
abbrev KeyIndex := Fin 16

/-- A framebuffer column, growing to the right (44_display.md R232). -/
abbrev Column := Fin 64

/-- A framebuffer row, growing downward (44_display.md R232). -/
abbrev Row := Fin 32

end Sys2Proof
end

