-- ==== Sys2Proof/Config.lean ====
section
/-! DEFINITION. The size of memory (00_scope.md R9; the other sizes are the types of Word.lean and State), and the free values: what the spec leaves to any
draw (the random byte, 42_alu.md R181) or to any value at all (the state after a fatal error, 60_exceptions.md R284).
A free value is an opaque constant applied to the counter `State.draws`: no proof can learn anything about it.
The parameters that are decisions of the spec (font, Fx65 bound, stack depth) stand in Machine/Params.lean. -/

namespace Sys2Proof.Config

/-- `MEM_SIZE`: the valid addresses are those below it (00_scope.md R9, 20_memory.md R61). -/
@[simp] abbrev memSize : Nat := 4096

/-- `RandomByte()`: the draw with this index, a free byte (42_alu.md R181; log 2). -/
opaque randomByte : Nat → Byte

/-! The state a fatal error leaves, field by field: "every field of the state except HALT is unspecified"
(60_exceptions.md R284; log 3). Each is indexed by the counter at the error; memory also by the address. -/

/-- Memory byte at an address after a fatal error: any value (60_exceptions.md R284). -/
opaque afterFatalByte : Nat → Nat → Byte

/-- The registers after a fatal error: any values (60_exceptions.md R284). -/
opaque afterFatalV : Nat → Vector Byte 16

/-- I after a fatal error: any value (60_exceptions.md R284). -/
opaque afterFatalI : Nat → Word

/-- PC after a fatal error: any value (60_exceptions.md R284). -/
opaque afterFatalPc : Nat → Word

/-- SP after a fatal error: any value in 0..16 (60_exceptions.md R284). -/
opaque afterFatalSp : Nat → Fin 17

/-- The call stack after a fatal error: any values (60_exceptions.md R284). -/
opaque afterFatalStack : Nat → Vector Word 16

/-- The delay timer after a fatal error: any value (60_exceptions.md R284). -/
opaque afterFatalDt : Nat → Byte

/-- The sound timer after a fatal error: any value (60_exceptions.md R284). -/
opaque afterFatalSt : Nat → Byte

/-- The framebuffer after a fatal error: any pixels (60_exceptions.md R284). -/
opaque afterFatalFb : Nat → Vector Bool 2048

/-- The keypad cells after a fatal error: any values (60_exceptions.md R284). -/
opaque afterFatalKey : Nat → Vector Byte 16

end Sys2Proof.Config
end

