-- ==== Sys2Proof/Machine/Params.lean ====
section
/-! DEFINITION. The parameters of 00_scope.md R9 whose values are the spec's decisions: the font bytes, the upper bound
of Fx65, the stack depth; and the fixed addresses and sizes that go with them. -/

namespace Sys2Proof.Machine

/-- `FONT`: 16 glyphs of 5 bytes, glyphs 0 to F in order, top row first (70_reset_and_hazards.md R321). The layout is
the spec's; the byte values are those of 92_eei_decisions.md D16, PRESUMED, from general knowledge (log 1). -/
def font : List Byte :=
  [0xF0, 0x90, 0x90, 0x90, 0xF0] ++ [0x20, 0x60, 0x20, 0x20, 0x70] ++
  [0xF0, 0x10, 0xF0, 0x80, 0xF0] ++ [0xF0, 0x10, 0xF0, 0x10, 0xF0] ++
  [0x90, 0x90, 0xF0, 0x10, 0x10] ++ [0xF0, 0x80, 0xF0, 0x10, 0xF0] ++
  [0xF0, 0x80, 0xF0, 0x90, 0xF0] ++ [0xF0, 0x10, 0x20, 0x40, 0x40] ++
  [0xF0, 0x90, 0xF0, 0x90, 0xF0] ++ [0xF0, 0x90, 0xF0, 0x10, 0xF0] ++
  [0xF0, 0x90, 0xF0, 0x90, 0x90] ++ [0xE0, 0x90, 0xE0, 0x90, 0xE0] ++
  [0xF0, 0x80, 0x80, 0x80, 0xF0] ++ [0xE0, 0x90, 0x90, 0x90, 0xE0] ++
  [0xF0, 0x80, 0xF0, 0x80, 0xF0] ++ [0xF0, 0x80, 0xF0, 0x80, 0x80]

/-- The font occupies the addresses below it: 16 glyphs x 5 bytes from `FONT_BASE` = 0 (00_scope.md R9). -/
def fontSize : Nat := 80

/-- `GLYPH_BYTES` (00_scope.md R9). -/
def glyphBytes : Nat := 5

/-- `LOAD_ORIGIN` (00_scope.md R9, 90_conflicts.md C6). -/
def loadOrigin : Nat := 0x200

/-- `STACK_DEPTH`: 16 entries (00_scope.md R9; the order of push and pop is 92_eei_decisions.md D3, log 6). -/
def stackDepth : Fin 17 := 16

/-- `FX65_INCLUDES_VX`: false on this hardware (00_scope.md R9, 90_conflicts.md C1, 92_eei_decisions.md D6; log 5). -/
def fx65IncludesVx : Bool := false

/-- The register that takes the flag: VF (00_scope.md R9, 10_state.md R22). -/
def flagReg : RegIndex := 0xF

end Sys2Proof.Machine
end

