-- ==== Sys2Proof/Syntax.lean ====
section
/-! DEFINITION. The instructions: one constructor per row of spec/opcode_table.json, in the table's order, named after
the constructors of 30_encoding.md R93. The operand fields are those of 00_scope.md R11 and 30_encoding.md R92. -/

namespace Sys2Proof

/-- The 34 CHIP-8 instructions (00_scope.md R2, 30_encoding.md R94). The docstring of a constructor gives its pattern. -/
inductive Instr where
  /-- `00E0`: clear the framebuffer (44_display.md R230). -/
  | cls
  /-- `00EE`: return from subroutine (41_control.md R140). -/
  | ret
  /-- `1nnn`: jump (41_control.md R141). -/
  | jp (nnn : Addr12)
  /-- `2nnn`: call subroutine (41_control.md R142). -/
  | call (nnn : Addr12)
  /-- `3xkk`: skip if Vx equals the immediate (41_control.md R143). -/
  | seImm (x : RegIndex) (kk : Byte)
  /-- `4xkk`: skip if Vx does not equal the immediate (41_control.md R144). -/
  | sneImm (x : RegIndex) (kk : Byte)
  /-- `5xy0`: skip if Vx equals Vy (41_control.md R145). -/
  | seReg (x y : RegIndex)
  /-- `6xkk`: load an immediate (42_alu.md R170). -/
  | ldImm (x : RegIndex) (kk : Byte)
  /-- `7xkk`: add an immediate, no flag (42_alu.md R171). -/
  | addImm (x : RegIndex) (kk : Byte)
  /-- `8xy0`: register move (42_alu.md R172). -/
  | ldReg (x y : RegIndex)
  /-- `8xy1`: bitwise OR (42_alu.md R173). -/
  | orReg (x y : RegIndex)
  /-- `8xy2`: bitwise AND (42_alu.md R174). -/
  | andReg (x y : RegIndex)
  /-- `8xy3`: bitwise XOR (42_alu.md R175). -/
  | xorReg (x y : RegIndex)
  /-- `8xy4`: add with carry (42_alu.md R176). -/
  | addReg (x y : RegIndex)
  /-- `8xy5`: subtract Vy from Vx (42_alu.md R177). -/
  | sub (x y : RegIndex)
  /-- `8xy6`: shift right by one; `y` is decoded and not used (42_alu.md R178). -/
  | shr (x y : RegIndex)
  /-- `8xy7`: subtract Vx from Vy, into Vx (42_alu.md R179). -/
  | subn (x y : RegIndex)
  /-- `8xyE`: shift left by one; `y` is decoded and not used (42_alu.md R180). -/
  | shl (x y : RegIndex)
  /-- `9xy0`: skip if Vx does not equal Vy (41_control.md R146). -/
  | sneReg (x y : RegIndex)
  /-- `Annn`: set I (43_index_memory.md R200). -/
  | ldI (nnn : Addr12)
  /-- `Bnnn`: jump to nnn plus V0 (41_control.md R147). -/
  | jpV0 (nnn : Addr12)
  /-- `Cxkk`: random byte AND immediate (42_alu.md R181). -/
  | rnd (x : RegIndex) (kk : Byte)
  /-- `Dxyn`: draw a sprite of n rows, n in 0..15 (44_display.md R231). -/
  | drw (x y : RegIndex) (n : Fin 16)
  /-- `Ex9E`: skip if the key numbered Vx is pressed (45_keypad_timers.md R250). -/
  | skp (x : RegIndex)
  /-- `ExA1`: skip if the key numbered Vx is not pressed (45_keypad_timers.md R251). -/
  | sknp (x : RegIndex)
  /-- `Fx07`: read the delay timer (45_keypad_timers.md R253). -/
  | ldVxDt (x : RegIndex)
  /-- `Fx0A`: wait for a key, then put its index in Vx (45_keypad_timers.md R252). -/
  | ldVxK (x : RegIndex)
  /-- `Fx15`: set the delay timer (45_keypad_timers.md R254). -/
  | ldDtVx (x : RegIndex)
  /-- `Fx18`: set the sound timer (45_keypad_timers.md R255). -/
  | ldStVx (x : RegIndex)
  /-- `Fx1E`: add Vx to I (43_index_memory.md R201). -/
  | addIVx (x : RegIndex)
  /-- `Fx29`: set I to the font glyph of digit Vx (43_index_memory.md R202). -/
  | ldFVx (x : RegIndex)
  /-- `Fx33`: store the decimal digits of Vx (43_index_memory.md R203). -/
  | ldBVx (x : RegIndex)
  /-- `Fx55`: store V0 through Vx (43_index_memory.md R204). -/
  | ldMemVx (x : RegIndex)
  /-- `Fx65`: load V0 through V(x-1) (43_index_memory.md R205). -/
  | ldVxMem (x : RegIndex)
deriving DecidableEq, Repr

end Sys2Proof
end

