-- ==== Sys2Proof/Machine/State.lean ====
section
/-! DEFINITION. The state of the core: the record of 10_state.md R20 field by field, the two fatal errors
(60_exceptions.md R280 to R282), the run state (10_state.md R35), and the state after construction (10_state.md R38). -/

namespace Sys2Proof.Machine

/-- What an out-of-bounds access was about: the column `what` of 60_exceptions.md R281. -/
inductive AccessKind where
  /-- A memory address of 4096 or more. -/
  | memory
  /-- A call with SP = 16. -/
  | stackOverflow
  /-- A return with SP = 0. -/
  | stackUnderflow
  /-- A key index of 16 or more. -/
  | keypad
deriving DecidableEq, Repr

/-- The fatal errors (60_exceptions.md R280), each with what 60_exceptions.md R281 and R282 record. An instruction or
fetch that raises one enters `RunState.halted` with it (a next state); `step` answers it as a fault for every further
cycle of the halted core (40_cycle.md R120). -/
inductive Fault where
  /-- `OutOfBoundsAccess(what, value)` at the instruction whose PC is `pc`. Raised by fetch, `Dxyn`, `Fx33`, `Fx55`,
  `Fx65`, `2nnn`, `00EE`, `Ex9E`, `ExA1` (60_exceptions.md R281); answered as a fault only by `step` on a halted core.
  Safe: the core has no step there (60_exceptions.md R286). -/
  | outOfBoundsAccess (what : AccessKind) (value : Nat) (pc : Word)
  /-- `UndecodableOpcode(w)` fetched at `pc`. Raised by decode (60_exceptions.md R282); answered as a fault only by
  `step` on a halted core. Safe: the core has no step there (60_exceptions.md R286). -/
  | undecodableOpcode (w : Word) (pc : Word)
deriving DecidableEq, Repr

/-- Why a step or a host call has no meaning. No instruction of this model answers a refusal. -/
inductive Refusal where
  /-- An instruction without a meaning. No arm of `exec` answers it: every instruction is modelled. Safe: it stops. -/
  | notModelled (mnemonic : String)
  /-- The host's `load` of a byte sequence of this length does not fit above 0x200 (70_reset_and_hazards.md R326).
  Raised by `hostCall` alone, never by `step` or `exec`. Safe: it stops, and the spec has no such host move. -/
  | loadTooLong (len : Nat)
deriving DecidableEq, Repr

/-- HALT (10_state.md R35): running, or halted by a fatal error with its kind and record. -/
inductive RunState where
  | running
  | halted (e : Fault)
deriving DecidableEq, Repr

/-- Memory: the (address, byte) cells that differ from the contents after construction, addresses strictly rising
(10_state.md R34, 20_memory.md R60). `Memory.wf` states the form. -/
abbrev Memory := List Host.Cell

/-- The framebuffer: 64 x 32 one-bit pixels, cell `px + 64*py` (10_state.md R32). -/
abbrev Framebuffer := Vector Bool 2048

/-- The architectural state (10_state.md R20, the first eleven fields) and the model's own counter of free values. -/
structure State where
  /-- MEM, 4096 bytes (10_state.md R34). -/
  mem : Memory
  /-- V0 to VF (10_state.md R21); VF is the flag (R22). -/
  v : Vector Byte 16
  /-- The index register I (10_state.md R25). -/
  i : Word
  /-- The program counter: the address of the executing instruction (10_state.md R26). -/
  pc : Word
  /-- The stack pointer, 0 to 16: the entries in use (10_state.md R28). -/
  sp : Fin 17
  /-- The sixteen return-address entries (10_state.md R29). -/
  stack : Vector Word 16
  /-- DT, the delay timer (10_state.md R30). -/
  dt : Byte
  /-- ST, the sound timer (10_state.md R31). -/
  st : Byte
  /-- FB, the framebuffer (10_state.md R32). -/
  fb : Framebuffer
  /-- KEY, the keypad cells: 0 released, 1 pressed (10_state.md R33). -/
  key : Vector Byte 16
  /-- HALT, the run state (10_state.md R35). -/
  halt : RunState
  /-- THE MODEL'S OWN: how many free values have been drawn, the index of the next one (log 2). -/
  draws : Nat
deriving DecidableEq, Repr

/-- What one step, one instruction or one host call answers. -/
abbrev StepResult := Host.Outcome State Fault Refusal

/-- The state after `construct()` (10_state.md R38, 70_reset_and_hazards.md R320, R322): memory as construction leaves
it (nothing listed), every other field zero, PC at 0x200, running. `draws` is the model's own (log 2). -/
def State.reset : State where
  mem := []
  v := Vector.replicate 16 0
  i := 0
  pc := 0x200
  sp := 0
  stack := Vector.replicate 16 0
  dt := 0
  st := 0
  fb := Vector.replicate 2048 false
  key := Vector.replicate 16 0
  halt := .running
  draws := 0

end Sys2Proof.Machine
end

