-- ==== Sys2Proof/Machine/Ops.lean ====
section
/-! DEFINITION. The named operations over memory, registers, program counter and call stack, and the fatal-error entry.
Memory is reached by `memRead` and `memWrite` alone (00_scope.md R14), registers by `State.reg` and `State.setReg`. -/

namespace Sys2Proof.Machine

/-! ### Memory as a list of cells -/

/-- What an address that no cell lists reads as: the contents after construction, the font at 0x000-0x04F and 0x00
elsewhere (10_state.md R38, 70_reset_and_hazards.md R321). -/
def Memory.unlisted (a : Nat) : Byte := if a < fontSize then font.getD a 0 else 0

/-- The byte at an address. -/
def Memory.byte : Memory → Nat → Byte
  | [], a => Memory.unlisted a
  | (b, w) :: m, a => if a = b then w else Memory.byte m a

/-- Put a cell in front of a memory, unless it says what an unlisted address reads as. -/
def Memory.cons (a : Nat) (v : Byte) (m : Memory) : Memory := if v = Memory.unlisted a then m else (a, v) :: m

/-- Write one byte and keep the canonical form (20_memory.md R67: only the addressed byte changes). -/
def Memory.setByte : Memory → Nat → Byte → Memory
  | [], a, v => Memory.cons a v []
  | (b, w) :: m, a, v =>
    if a < b then Memory.cons a v ((b, w) :: m)
    else if a = b then Memory.cons a v m
    else (b, w) :: Memory.setByte m a v

/-- Write bytes at consecutive ascending addresses, with no bound checked. -/
def Memory.setBytes : Memory → Nat → List Byte → Memory
  | m, _, [] => m
  | m, a, b :: bs => Memory.setBytes (Memory.setByte m a b) (a + 1) bs

/-- The memory of `n` bytes from address `a` up whose byte at each address is given by a function. -/
def Memory.tabulate (f : Nat → Byte) : Nat → Nat → Memory
  | _, 0 => []
  | a, n + 1 => Memory.cons a (f a) (Memory.tabulate f (a + 1) n)

/-- The canonical form from address `lo` up: addresses strictly rising and below 4096, and no cell that says what an
unlisted address reads as. -/
def Memory.wfFrom : Nat → Memory → Bool
  | _, [] => true
  | lo, (b, w) :: m => lo ≤ b && b < Config.memSize && w != Memory.unlisted b && Memory.wfFrom (b + 1) m

/-- The canonical form of a memory: equal memories are equal lists. -/
def Memory.wf (m : Memory) : Bool := Memory.wfFrom 0 m

/-! ### Fields of the state -/

/-- Replace memory. -/
def State.setMem (s : State) (m : Memory) : State := { s with mem := m }

/-- `V[x]` (00_scope.md R13). -/
def State.reg (s : State) (x : RegIndex) : Byte := s.v[x]

/-- `V[x] <- b` (00_scope.md R13). None of the sixteen is hardwired (10_state.md R21). -/
def State.setReg (s : State) (x : RegIndex) (b : Byte) : State := { s with v := s.v.set x b }

/-- `V[x] <- b`, then the flag into VF, the flag last (40_cycle.md R127, 10_state.md R22): with x = F the flag stays. -/
def State.setRegFlag (s : State) (x : RegIndex) (b flag : Byte) : State := (s.setReg x b).setReg flagReg flag

/-- `V[j] <- bs[j]` for every j below the length of `bs`; the other registers stay. -/
def State.setRegs (s : State) (bs : List Byte) : State :=
  { s with v := Vector.ofFn fun j : RegIndex => bs.getD j (s.reg j) }

/-- `I <- w`. -/
def State.setI (s : State) (w : Word) : State := { s with i := w }

/-- `PC <- w`. -/
def State.setPc (s : State) (w : Word) : State := { s with pc := w }

/-- `DT <- b`. -/
def State.setDt (s : State) (b : Byte) : State := { s with dt := b }

/-- `ST <- b`. -/
def State.setSt (s : State) (b : Byte) : State := { s with st := b }

/-- Replace the framebuffer. -/
def State.setFb (s : State) (fb : Framebuffer) : State := { s with fb := fb }

/-- `KEY[k] <- b`, the host's write (60_exceptions.md R298). -/
def State.setKey (s : State) (k : KeyIndex) (b : Byte) : State := { s with key := s.key.set k b }

/-- The next free value has been drawn (log 2). -/
def State.countDraw (s : State) : State := { s with draws := s.draws + 1 }

/-! ### PC sequencing -/

/-- `adv = (PC + 2) mod 2^16` (40_cycle.md R124). -/
def State.adv (s : State) : Word := s.pc + 2

/-- `skip = (PC + 4) mod 2^16` (40_cycle.md R124). -/
def State.skip (s : State) : Word := s.pc + 4

/-- `PC <- adv`, the default next PC (40_cycle.md R124). -/
def State.advance (s : State) : State := s.setPc s.adv

/-- The next PC of a skip: `skip` when its condition holds, else `adv` (40_cycle.md R125). -/
def State.skipIf (s : State) (c : Bool) : State := if c then s.setPc s.skip else s.advance

/-! ### Memory access (00_scope.md R14) -/

/-- `MemRead(a, 1)`: the byte, or `OutOfBoundsAccess(memory, a)` for an address of 4096 or more (20_memory.md R61). -/
def memRead (s : State) (a : Nat) : Except Fault Byte :=
  if a < Config.memSize then .ok (Memory.byte s.mem a) else .error (.outOfBoundsAccess .memory a s.pc)

/-- `MemWrite(a, 1, b)`: the state with the byte written, or `OutOfBoundsAccess(memory, a)` (20_memory.md R61). -/
def memWrite (s : State) (a : Nat) (b : Byte) : Except Fault State :=
  if a < Config.memSize then .ok (s.setMem (Memory.setByte s.mem a b)) else .error (.outOfBoundsAccess .memory a s.pc)

/-- Read `n` bytes at ascending addresses from `a`, stopping at the first address out of range (20_memory.md R76). -/
def readBytes (s : State) : Nat → Nat → Except Fault (List Byte)
  | _, 0 => .ok []
  | a, n + 1 =>
    match memRead s a with
    | .error e => .error e
    | .ok b =>
      match readBytes s (a + 1) n with
      | .error e => .error e
      | .ok bs => .ok (b :: bs)

/-- Write bytes at ascending addresses from `a`, stopping at the first address out of range (20_memory.md R76). -/
def writeBytes (s : State) : Nat → List Byte → Except Fault State
  | _, [] => .ok s
  | a, b :: bs =>
    match memWrite s a b with
    | .error e => .error e
    | .ok t => writeBytes t (a + 1) bs

/-! ### The call stack -/

/-- Push a return address on a stack of `depth` usable entries: fatal when SP = depth, else `STACK[SP] <- ret` and
`SP <- SP + 1` (41_control.md R142; 92_eei_decisions.md D3, which asks for claims at depth 15 too; log 6). -/
def pushReturn (depth : Fin 17) (s : State) (ret : Word) : Except Fault State :=
  if h : s.sp.val < depth.val then
    .ok { s with stack := s.stack.set s.sp.val ret (by omega), sp := ⟨s.sp.val + 1, by omega⟩ }
  else .error (.outOfBoundsAccess .stackOverflow s.sp.val s.pc)

/-- Pop a return address: fatal when SP = 0, else `SP <- SP - 1` and the entry at the new SP, which stays in place as a
stale value (41_control.md R140, 10_state.md R29). -/
def popReturn (s : State) : Except Fault (Word × State) :=
  if h : s.sp.val = 0 then .error (.outOfBoundsAccess .stackUnderflow s.sp.val s.pc)
  else .ok (s.stack[s.sp.val - 1]'(by omega), { s with sp := ⟨s.sp.val - 1, by omega⟩ })

/-! ### The fatal-error entry -/

/-- The numeric codes of the two errors, labels that no rule depends on (60_exceptions.md R280). -/
def Fault.code : Fault → Nat
  | .outOfBoundsAccess _ _ _ => 1
  | .undecodableOpcode _ _ => 2

/-- A fatal error sets `HALT <- halted(kind, info)` (60_exceptions.md R283); every other field is then any value
(R284): a free value of Config, at the next index (log 3). No handler runs, nothing is saved, no mode changes (R283). -/
def takeFatal (e : Fault) (s : State) : State where
  mem := Memory.tabulate (Config.afterFatalByte s.draws) 0 Config.memSize
  v := Config.afterFatalV s.draws
  i := Config.afterFatalI s.draws
  pc := Config.afterFatalPc s.draws
  sp := Config.afterFatalSp s.draws
  stack := Config.afterFatalStack s.draws
  dt := Config.afterFatalDt s.draws
  st := Config.afterFatalSt s.draws
  fb := Config.afterFatalFb s.draws
  key := Config.afterFatalKey s.draws
  halt := .halted e
  draws := s.draws + 1

/-- `raise e`: the instruction (or fetch) ends in the fatal-error entry, which is a next state (00_scope.md R14,
40_cycle.md R129). There is no return from it: only the host's `construct` starts a running core (60_exceptions.md
R286; `hostCall`). -/
def raise (e : Fault) (s : State) : StepResult := .next (takeFatal e s)

/-- End an instruction: its next state, or the fatal-error entry from the state it started in (40_cycle.md R129). -/
def finish (s : State) : Except Fault State → StepResult
  | .ok t => .next t
  | .error e => raise e s

end Sys2Proof.Machine
end

