-- ==== Sys2Proof/Machine/Flags.lean ====
section
/-! DEFINITION. Every flag computation of the spec (10_state.md R23): the values `8xy4`, `8xy5`, `8xy6`, `8xy7`, `8xyE`
and `Dxyn` write into VF. VF is the only flag. -/

namespace Sys2Proof.Machine

/-- A flag as the byte VF takes: 1 or 0. -/
def flagByte (c : Bool) : Byte := if c then 1 else 0

/-- Carry: 1 "if the unwrapped sum exceeds 255 else 0" (42_alu.md R176). -/
def carryFlag (a b : Byte) : Byte := flagByte (a.toNat + b.toNat > 255)

/-- Not-borrow of `a - b`: 1 if a > b, a strict comparison, else 0 (42_alu.md R177, R179). -/
def notBorrowFlag (a b : Byte) : Byte := flagByte (a.toNat > b.toNat)

/-- The bit a right shift moves out: bit 0 (42_alu.md R178). -/
def lowBitFlag (a : Byte) : Byte := a &&& 1

/-- The bit a left shift moves out: bit 7 (42_alu.md R180). -/
def highBitFlag (a : Byte) : Byte := (a >>> 7) &&& 1

/-- Collision: 1 if some pixel flipped from set to clear (44_display.md R231). -/
def collisionFlag (c : Bool) : Byte := flagByte c

end Sys2Proof.Machine
end

