-- ==== Sys2Proof/Machine/Alu.lean ====
section
/-! DEFINITION. Register loads and the ALU (42_alu.md): 6xkk, 7xkk, 8xy0 to 8xyE, Cxkk. Each reads its operands from the
state it starts in, ends with `PC <- adv` and writes VF last (40_cycle.md R124, R127). -/

namespace Sys2Proof.Machine

/-- The end of an instruction that writes one register and no flag. -/
def writeReg (x : RegIndex) (b : Byte) (s : State) : StepResult := .next (s.setReg x b).advance

/-- The end of an instruction that writes one register and then the flag (40_cycle.md R127). -/
def writeRegFlag (x : RegIndex) (b flag : Byte) (s : State) : StepResult := .next (s.setRegFlag x b flag).advance

/-- `6xkk`: `V[x] <- kk` (42_alu.md R170). -/
def execLdImm (x : RegIndex) (kk : Byte) (s : State) : StepResult := writeReg x kk s

/-- `7xkk`: `V[x] <- (V[x] + kk) mod 2^8`, no flag (42_alu.md R171). -/
def execAddImm (x : RegIndex) (kk : Byte) (s : State) : StepResult := writeReg x (s.reg x + kk) s

/-- `8xy0`: `V[x] <- V[y]` (42_alu.md R172). -/
def execLdReg (x y : RegIndex) (s : State) : StepResult := writeReg x (s.reg y) s

/-- `8xy1`: bitwise OR, no flag (42_alu.md R173; log 12). -/
def execOrReg (x y : RegIndex) (s : State) : StepResult := writeReg x (s.reg x ||| s.reg y) s

/-- `8xy2`: bitwise AND, no flag (42_alu.md R174; log 12). -/
def execAndReg (x y : RegIndex) (s : State) : StepResult := writeReg x (s.reg x &&& s.reg y) s

/-- `8xy3`: bitwise XOR, no flag (42_alu.md R175; log 12). -/
def execXorReg (x y : RegIndex) (s : State) : StepResult := writeReg x (s.reg x ^^^ s.reg y) s

/-- `8xy4`: the sum mod 2^8, and the carry (42_alu.md R176). -/
def execAddReg (x y : RegIndex) (s : State) : StepResult :=
  writeRegFlag x (s.reg x + s.reg y) (carryFlag (s.reg x) (s.reg y)) s

/-- `8xy5`: `V[x] - V[y]` mod 2^8, and 1 if `V[x] > V[y]` (42_alu.md R177). -/
def execSub (x y : RegIndex) (s : State) : StepResult :=
  writeRegFlag x (s.reg x - s.reg y) (notBorrowFlag (s.reg x) (s.reg y)) s

/-- `8xy6`: `V[x] >> 1`, and the bit shifted out; the y field is not used (42_alu.md R178). -/
def execShr (x _y : RegIndex) (s : State) : StepResult := writeRegFlag x (s.reg x >>> 1) (lowBitFlag (s.reg x)) s

/-- `8xy7`: `V[y] - V[x]` mod 2^8, and 1 if `V[y] > V[x]` (42_alu.md R179). -/
def execSubn (x y : RegIndex) (s : State) : StepResult :=
  writeRegFlag x (s.reg y - s.reg x) (notBorrowFlag (s.reg y) (s.reg x)) s

/-- `8xyE`: `V[x] << 1` mod 2^8, and the bit shifted out; the y field is not used (42_alu.md R180). -/
def execShl (x _y : RegIndex) (s : State) : StepResult := writeRegFlag x (s.reg x <<< 1) (highBitFlag (s.reg x)) s

/-- `Cxkk`: `V[x] <- r & kk` for a free draw r (42_alu.md R181; log 2). -/
def execRnd (x : RegIndex) (kk : Byte) (s : State) : StepResult :=
  writeReg x (Config.randomByte s.draws &&& kk) s.countDraw

end Sys2Proof.Machine
end

