-- ==== Sys2Proof/Machine/Operands.lean ====
section
/-! DEFINITION. The operand forms of the spec: zero-extended addresses (30_encoding.md R92), effective addresses
through I (43_index_memory.md R206), decimal digits (R203), key indexes (45_keypad_timers.md R256) and pixels
(44_display.md R231, R232). -/

namespace Sys2Proof.Machine

/-- `zext_16` of a 12-bit address (00_scope.md R12, 30_encoding.md R92). -/
def zextAddr (nnn : Addr12) : Word := nnn.setWidth 16

/-- `zext_16` of a byte (00_scope.md R12). -/
def zextByte (b : Byte) : Word := b.setWidth 16

/-- The effective address I, an exact integer that never wraps (20_memory.md R62). -/
def indexAddr (s : State) : Nat := s.i.toNat

/-- The three decimal digits of a byte: hundreds, tens, units (43_index_memory.md R203). -/
def decimalDigits (a : Byte) : List Byte :=
  [BitVec.ofNat 8 (a.toNat / 100), BitVec.ofNat 8 (a.toNat / 10 % 10), BitVec.ofNat 8 (a.toNat % 10)]

/-- The values of V0 to Vx, x + 1 of them (43_index_memory.md R204). -/
def regsThrough (s : State) (x : RegIndex) : List Byte := s.v.toList.take (x.val + 1)

/-- How many bytes `Fx65` loads: x + 1 if the parameter includes Vx, else x (43_index_memory.md R205). -/
def loadCount (includesVx : Bool) (x : RegIndex) : Nat := if includesVx then x.val + 1 else x.val

/-- The address of the font glyph of digit `a`, from `FONT_BASE` = 0 (43_index_memory.md R202). -/
def glyphAddr (a : Byte) : Word := BitVec.ofNat 16 (a.toNat * glyphBytes)

/-! ### Keys -/

/-- `Pressed(k)`: `KEY[k] != 0` (00_scope.md R14). -/
def pressed (s : State) (k : KeyIndex) : Bool := s.key[k] != 0

/-- Is the key numbered by a byte pressed? `OutOfBoundsAccess(keypad, k)` for a number of 16 or more: the number is not
masked (45_keypad_timers.md R256; log 9). -/
def keyState (s : State) (k : Byte) : Except Fault Bool :=
  if h : k.toNat < 16 then .ok (pressed s ⟨k.toNat, h⟩) else .error (.outOfBoundsAccess .keypad k.toNat s.pc)

/-- The lowest key pressed, if any: "lowest index wins" (45_keypad_timers.md R252). -/
def lowestPressed (s : State) : Option KeyIndex := (List.finRange 16).find? (pressed s)

/-! ### Pixels -/

/-- The framebuffer cell of column px and row py: `px + 64*py` (44_display.md R232). -/
def pixelIndex (px : Column) (py : Row) : Fin 2048 := ⟨px.val + 64 * py.val, by omega⟩

/-- `FB[px, py]`. -/
def Framebuffer.pixel (fb : Framebuffer) (px : Column) (py : Row) : Bool := fb[pixelIndex px py]

/-- `FB[px, py] <- FB[px, py] ^ 1`. -/
def Framebuffer.flip (fb : Framebuffer) (px : Column) (py : Row) : Framebuffer :=
  fb.set (pixelIndex px py) (!fb.pixel px py)

/-- `(x0 + col) mod 64`: columns wrap, the start column too (44_display.md R231). -/
def wrapColumn (x0 : Byte) (col : Nat) : Column := ⟨(x0.toNat + col) % 64, by omega⟩

/-- `(y0 + r) mod 32`: rows wrap, the start row too (44_display.md R231). -/
def wrapRow (y0 : Byte) (r : Nat) : Row := ⟨(y0.toNat + r) % 32, by omega⟩

/-- The pixel of a sprite byte at column 0 to 7: the most significant bit is the leftmost (44_display.md R231, R232). -/
def spriteBit (b : Byte) (col : Nat) : Bool := b.getLsbD (7 - col)

end Sys2Proof.Machine
end

