-- ==== Sys2Proof/Machine/Control.lean ====
section
/-! DEFINITION. Control transfer and skips (41_control.md): 00EE, 1nnn, 2nnn, 3xkk, 4xkk, 5xy0, 9xy0, Bnnn. -/

namespace Sys2Proof.Machine

/-- `00EE`: PC takes the popped entry, nothing added; fatal when SP = 0 (41_control.md R140). -/
def execRet (s : State) : StepResult :=
  finish s <| match popReturn s with
    | .ok (ret, t) => .ok (t.setPc ret)
    | .error e => .error e

/-- `1nnn`: `PC <- zext_16(nnn)` (41_control.md R141). -/
def execJp (nnn : Addr12) (s : State) : StepResult := .next (s.setPc (zextAddr nnn))

/-- `2nnn`: push adv, then `PC <- zext_16(nnn)`; fatal when SP = 16 (41_control.md R142). -/
def execCall (nnn : Addr12) (s : State) : StepResult :=
  finish s <| match pushReturn stackDepth s s.adv with
    | .ok t => .ok (t.setPc (zextAddr nnn))
    | .error e => .error e

/-- `3xkk`: skip if `V[x] = kk` (41_control.md R143). -/
def execSeImm (x : RegIndex) (kk : Byte) (s : State) : StepResult := .next (s.skipIf (s.reg x = kk))

/-- `4xkk`: skip if `V[x] != kk` (41_control.md R144). -/
def execSneImm (x : RegIndex) (kk : Byte) (s : State) : StepResult := .next (s.skipIf (s.reg x ≠ kk))

/-- `5xy0`: skip if `V[x] = V[y]` (41_control.md R145). -/
def execSeReg (x y : RegIndex) (s : State) : StepResult := .next (s.skipIf (s.reg x = s.reg y))

/-- `9xy0`: skip if `V[x] != V[y]` (41_control.md R146). -/
def execSneReg (x y : RegIndex) (s : State) : StepResult := .next (s.skipIf (s.reg x ≠ s.reg y))

/-- `Bnnn`: `PC <- zext_16(nnn) + zext_16(V[0])`; the register is always V0 (41_control.md R147). -/
def execJpV0 (nnn : Addr12) (s : State) : StepResult := .next (s.setPc (zextAddr nnn + zextByte (s.reg 0)))

end Sys2Proof.Machine
end

