-- ==== Sys2Proof/Machine/Display.lean ====
section
/-! DEFINITION. The framebuffer instructions (44_display.md): 00E0 and Dxyn. The loops are those of 44_display.md R231. -/

namespace Sys2Proof.Machine

/-- A drawing in progress: the pixels, and whether some pixel has flipped from set to clear (`c` of 44_display.md R231). -/
abbrev Drawing := Framebuffer × Bool

/-- One column of one sprite row: a set bit flips its pixel, a clear bit leaves it (44_display.md R231). -/
def drawPixel (x0 y0 : Byte) (r : Nat) (b : Byte) (d : Drawing) (col : Nat) : Drawing :=
  if spriteBit b col then
    (d.1.flip (wrapColumn x0 col) (wrapRow y0 r), d.2 || d.1.pixel (wrapColumn x0 col) (wrapRow y0 r))
  else d

/-- One sprite row: its eight columns, most significant bit first (44_display.md R231). -/
def drawRow (x0 y0 : Byte) (r : Nat) (b : Byte) (d : Drawing) : Drawing :=
  (List.range 8).foldl (drawPixel x0 y0 r b) d

/-- The sprite rows in order from row `r` (44_display.md R231). -/
def drawRows (x0 y0 : Byte) : Nat → List Byte → Drawing → Drawing
  | _, [], d => d
  | r, b :: bs, d => drawRows x0 y0 (r + 1) bs (drawRow x0 y0 r b d)

/-- `00E0`: every pixel clear (44_display.md R230). -/
def execCls (s : State) : StepResult := .next (s.setFb (Vector.replicate 2048 false)).advance

/-- `Dxyn`: n rows from I drawn at `(V[x], V[y])`, both read before VF is written; VF takes the collision flag
(44_display.md R231; log 10). The sprite bytes are read before the pixels are flipped: drawing never writes memory, and
a fatal error leaves no pixel to read (60_exceptions.md R284), so this order is not observable. -/
def execDrw (x y : RegIndex) (n : Fin 16) (s : State) : StepResult :=
  finish s <| match readBytes s (indexAddr s) n.val with
    | .ok rows =>
      let d := drawRows (s.reg x) (s.reg y) 0 rows (s.fb, false)
      .ok ((s.setFb d.1).setReg flagReg (collisionFlag d.2)).advance
    | .error e => .error e

end Sys2Proof.Machine
end

