-- ==== Sys2Proof/Machine/IndexMemory.lean ====
section
/-! DEFINITION. The index register and memory transfers (43_index_memory.md): Annn, Fx1E, Fx29, Fx33, Fx55, Fx65. None
writes VF as a flag, and none of the three transfers changes I. -/

namespace Sys2Proof.Machine

/-- The end of an instruction that writes bytes at ascending addresses from I (20_memory.md R62, R76). -/
def storeAtIndex (bs : List Byte) (s : State) : StepResult :=
  finish s <| match writeBytes s (indexAddr s) bs with
    | .ok t => .ok t.advance
    | .error e => .error e

/-- The end of an instruction that loads `n` bytes at ascending addresses from I into V0, V1, ... -/
def loadFromIndex (n : Nat) (s : State) : StepResult :=
  finish s <| match readBytes s (indexAddr s) n with
    | .ok bs => .ok (s.setRegs bs).advance
    | .error e => .error e

/-- `Annn`: `I <- zext_16(nnn)` (43_index_memory.md R200). -/
def execLdI (nnn : Addr12) (s : State) : StepResult := .next (s.setI (zextAddr nnn)).advance

/-- `Fx1E`: `I <- (I + V[x]) mod 2^16`, no flag (43_index_memory.md R201). -/
def execAddIVx (x : RegIndex) (s : State) : StepResult := .next (s.setI (s.i + zextByte (s.reg x))).advance

/-- `Fx29`: if `V[x] < 16`, I takes the glyph's address; else I stays (43_index_memory.md R202; log 8). -/
def execLdFVx (x : RegIndex) (s : State) : StepResult :=
  .next (if (s.reg x).toNat < 16 then s.setI (glyphAddr (s.reg x)) else s).advance

/-- `Fx33`: the three decimal digits of `V[x]` at I, I+1, I+2 (43_index_memory.md R203). -/
def execLdBVx (x : RegIndex) (s : State) : StepResult := storeAtIndex (decimalDigits (s.reg x)) s

/-- `Fx55`: V0 to Vx at I, I+1, ..., I+x (43_index_memory.md R204; log 11). -/
def execLdMemVx (x : RegIndex) (s : State) : StepResult := storeAtIndex (regsThrough s x) s

/-- `Fx65`: V0, V1, ... from I, I+1, ...; Vx itself only if the parameter includes it (43_index_memory.md R205;
log 5, log 11). -/
def execLdVxMem (x : RegIndex) (s : State) : StepResult := loadFromIndex (loadCount fx65IncludesVx x) s

end Sys2Proof.Machine
end

