-- ==== Sys2Proof/Machine/KeypadTimers.lean ====
section
/-! DEFINITION. Keypad and timer instructions (45_keypad_timers.md): Ex9E, ExA1, Fx0A, Fx07, Fx15, Fx18. They see the
keys and timers the host has left between cycles. -/

namespace Sys2Proof.Machine

/-- A skip on the state of the key numbered `k`, skipping when it equals `want`; fatal for k of 16 or more
(45_keypad_timers.md R250, R251, R256). -/
def skipOnKey (k : Byte) (want : Bool) (s : State) : StepResult :=
  finish s <| match keyState s k with
    | .ok down => .ok (s.skipIf (down = want))
    | .error e => .error e

/-- `Ex9E`: skip if the key numbered `V[x]` is pressed (45_keypad_timers.md R250). -/
def execSkp (x : RegIndex) (s : State) : StepResult := skipOnKey (s.reg x) true s

/-- `ExA1`: skip if the key numbered `V[x]` is not pressed (45_keypad_timers.md R251). -/
def execSknp (x : RegIndex) (s : State) : StepResult := skipOnKey (s.reg x) false s

/-- `Fx0A`: with no key pressed nothing changes, PC included; else `V[x]` takes the lowest key's index
(45_keypad_timers.md R252; log 13). -/
def execLdVxK (x : RegIndex) (s : State) : StepResult :=
  match lowestPressed s with
  | none => .next s
  | some k => .next (s.setReg x (BitVec.ofNat 8 k.val)).advance

/-- `Fx07`: `V[x] <- DT` (45_keypad_timers.md R253). -/
def execLdVxDt (x : RegIndex) (s : State) : StepResult := .next (s.setReg x s.dt).advance

/-- `Fx15`: `DT <- V[x]` (45_keypad_timers.md R254). -/
def execLdDtVx (x : RegIndex) (s : State) : StepResult := .next (s.setDt (s.reg x)).advance

/-- `Fx18`: `ST <- V[x]` (45_keypad_timers.md R255). -/
def execLdStVx (x : RegIndex) (s : State) : StepResult := .next (s.setSt (s.reg x)).advance

end Sys2Proof.Machine
end

