-- ==== Sys2Proof/Decode.lean ====
section
/-! DEFINITION. The decoder of 30_encoding.md R93, total on words and on byte lists and rejecting by name, and the
encoder written from the formats of 30_encoding.md R91 and the patterns of R94. Bit 0 is the least significant bit
(00_scope.md R10). -/

namespace Sys2Proof

/-- Why bytes are not an instruction. -/
inductive DecodeError where
  /-- The word is not in the opcode table (30_encoding.md R95). -/
  | undecodableOpcode (w : Word)
  /-- Fewer than the two bytes of an instruction word (30_encoding.md R90). -/
  | truncated
deriving DecidableEq, Repr

/-! ### Fields (00_scope.md R11, 30_encoding.md R92) -/

/-- The four-bit field of `w` whose lowest bit is bit `lo`, as an unsigned number. -/
def nibble (w : Word) (lo : Nat) : Fin 16 := ⟨(w.extractLsb' lo 4).toNat, (w.extractLsb' lo 4).isLt⟩

/-- `op = w[15:12]`, the category (30_encoding.md R91). -/
def opField (w : Word) : Fin 16 := nibble w 12

/-- `x = w[11:8]`. -/
def xField (w : Word) : RegIndex := nibble w 8

/-- `y = w[7:4]`. -/
def yField (w : Word) : RegIndex := nibble w 4

/-- `n = w[3:0]`. -/
def nField (w : Word) : Fin 16 := nibble w 0

/-- `kk = w[7:0]`. -/
def kkField (w : Word) : Byte := w.extractLsb' 0 8

/-- `nnn = w[11:0]`. -/
def nnnField (w : Word) : Addr12 := w.extractLsb' 0 12

/-! ### The decoder (30_encoding.md R93) -/

/-- Category 0x8: the register ALU, selected by the low nibble. -/
def decodeCategory8 (w : Word) : Except DecodeError Instr :=
  match (nField w).val with
  | 0x0 => .ok (.ldReg (xField w) (yField w))
  | 0x1 => .ok (.orReg (xField w) (yField w))
  | 0x2 => .ok (.andReg (xField w) (yField w))
  | 0x3 => .ok (.xorReg (xField w) (yField w))
  | 0x4 => .ok (.addReg (xField w) (yField w))
  | 0x5 => .ok (.sub (xField w) (yField w))
  | 0x6 => .ok (.shr (xField w) (yField w))
  | 0x7 => .ok (.subn (xField w) (yField w))
  | 0xE => .ok (.shl (xField w) (yField w))
  | _ => .error (.undecodableOpcode w)

/-- Category 0xE: the key skips, selected by the low byte. -/
def decodeCategoryE (w : Word) : Except DecodeError Instr :=
  match (kkField w).toNat with
  | 0x9E => .ok (.skp (xField w))
  | 0xA1 => .ok (.sknp (xField w))
  | _ => .error (.undecodableOpcode w)

/-- Category 0xF, selected by the low byte. -/
def decodeCategoryF (w : Word) : Except DecodeError Instr :=
  match (kkField w).toNat with
  | 0x07 => .ok (.ldVxDt (xField w))
  | 0x0A => .ok (.ldVxK (xField w))
  | 0x15 => .ok (.ldDtVx (xField w))
  | 0x18 => .ok (.ldStVx (xField w))
  | 0x1E => .ok (.addIVx (xField w))
  | 0x29 => .ok (.ldFVx (xField w))
  | 0x33 => .ok (.ldBVx (xField w))
  | 0x55 => .ok (.ldMemVx (xField w))
  | 0x65 => .ok (.ldVxMem (xField w))
  | _ => .error (.undecodableOpcode w)

/-- The decoder: every word is an instruction or is refused by name (30_encoding.md R93, R95 to R98). -/
def decode (w : Word) : Except DecodeError Instr :=
  match (opField w).val with
  | 0x0 => if w = 0x00E0 then .ok .cls else if w = 0x00EE then .ok .ret else .error (.undecodableOpcode w)
  | 0x1 => .ok (.jp (nnnField w))
  | 0x2 => .ok (.call (nnnField w))
  | 0x3 => .ok (.seImm (xField w) (kkField w))
  | 0x4 => .ok (.sneImm (xField w) (kkField w))
  | 0x5 => if nField w = 0 then .ok (.seReg (xField w) (yField w)) else .error (.undecodableOpcode w)
  | 0x6 => .ok (.ldImm (xField w) (kkField w))
  | 0x7 => .ok (.addImm (xField w) (kkField w))
  | 0x8 => decodeCategory8 w
  | 0x9 => if nField w = 0 then .ok (.sneReg (xField w) (yField w)) else .error (.undecodableOpcode w)
  | 0xA => .ok (.ldI (nnnField w))
  | 0xB => .ok (.jpV0 (nnnField w))
  | 0xC => .ok (.rnd (xField w) (kkField w))
  | 0xD => .ok (.drw (xField w) (yField w) (nField w))
  | 0xE => decodeCategoryE w
  | _ => decodeCategoryF w

/-! ### Bytes: the word is big-endian (20_memory.md R64, 30_encoding.md R90) -/

/-- `w = (hi << 8) | lo`: the byte at the lower address is `w[15:8]`. -/
def wordOfBytes (hi lo : Byte) : Word := hi ++ lo

/-- The two bytes of a word in the order they lie in memory, the high byte first. -/
def bytesOfWord (w : Word) : List Byte := [w.extractLsb' 8 8, w.extractLsb' 0 8]

/-- Decode the instruction at the head of a byte list, and return the bytes after it. -/
def decodeBytes : List Byte → Except DecodeError (Instr × List Byte)
  | hi :: lo :: rest =>
    match decode (wordOfBytes hi lo) with
    | .ok i => .ok (i, rest)
    | .error e => .error e
  | _ => .error .truncated

/-! ### The encoder: the six formats of 30_encoding.md R91 -/

/-- A register number, sub-opcode or row count as a four-bit field. -/
def nibbleBits (x : Fin 16) : BitVec 4 := BitVec.ofNat 4 x.val

/-- Format `ADDR`. -/
def encodeAddr (op : BitVec 4) (nnn : Addr12) : Word := op ++ nnn

/-- Format `XKK`, and format `XSUB` with the sub-opcode in place of the immediate. -/
def encodeXkk (op : BitVec 4) (x : RegIndex) (kk : Byte) : Word := op ++ nibbleBits x ++ kk

/-- Format `XYN`, and format `XY` with the sub-opcode in place of the row count. -/
def encodeXyn (op : BitVec 4) (x y n : Fin 16) : Word := op ++ nibbleBits x ++ nibbleBits y ++ nibbleBits n

/-- The instruction word of an instruction (30_encoding.md R91, R94). -/
def encode : Instr → Word
  | .cls => 0x00E0
  | .ret => 0x00EE
  | .jp nnn => encodeAddr 0x1 nnn
  | .call nnn => encodeAddr 0x2 nnn
  | .seImm x kk => encodeXkk 0x3 x kk
  | .sneImm x kk => encodeXkk 0x4 x kk
  | .seReg x y => encodeXyn 0x5 x y 0x0
  | .ldImm x kk => encodeXkk 0x6 x kk
  | .addImm x kk => encodeXkk 0x7 x kk
  | .ldReg x y => encodeXyn 0x8 x y 0x0
  | .orReg x y => encodeXyn 0x8 x y 0x1
  | .andReg x y => encodeXyn 0x8 x y 0x2
  | .xorReg x y => encodeXyn 0x8 x y 0x3
  | .addReg x y => encodeXyn 0x8 x y 0x4
  | .sub x y => encodeXyn 0x8 x y 0x5
  | .shr x y => encodeXyn 0x8 x y 0x6
  | .subn x y => encodeXyn 0x8 x y 0x7
  | .shl x y => encodeXyn 0x8 x y 0xE
  | .sneReg x y => encodeXyn 0x9 x y 0x0
  | .ldI nnn => encodeAddr 0xA nnn
  | .jpV0 nnn => encodeAddr 0xB nnn
  | .rnd x kk => encodeXkk 0xC x kk
  | .drw x y n => encodeXyn 0xD x y n
  | .skp x => encodeXkk 0xE x 0x9E
  | .sknp x => encodeXkk 0xE x 0xA1
  | .ldVxDt x => encodeXkk 0xF x 0x07
  | .ldVxK x => encodeXkk 0xF x 0x0A
  | .ldDtVx x => encodeXkk 0xF x 0x15
  | .ldStVx x => encodeXkk 0xF x 0x18
  | .addIVx x => encodeXkk 0xF x 0x1E
  | .ldFVx x => encodeXkk 0xF x 0x29
  | .ldBVx x => encodeXkk 0xF x 0x33
  | .ldMemVx x => encodeXkk 0xF x 0x55
  | .ldVxMem x => encodeXkk 0xF x 0x65

/-! ### The opcode table's numbering -/

/-- The bytes of an instruction whose bits are `w`, bit 0 the least significant bit of its one word; bits from `nbits`
up are 0. The word is laid out big-endian, as the core stores it (20_memory.md R64). -/
def tableBytes (nbits w : Nat) : List Byte := bytesOfWord (BitVec.ofNat 16 (w % 2 ^ nbits))

/-- What the decoder reads from those bytes; `none` where it refuses. -/
def decodeTableWord (nbits w : Nat) : Option Instr :=
  match decodeBytes (tableBytes nbits w) with
  | .ok (i, _) => some i
  | .error _ => none

end Sys2Proof
end

