-- ==== Sys2Proof/Machine/Fetch.lean ====
section
/-! DEFINITION. Fetch and decode (40_cycle.md R121, R122): the two parts of a cycle before its instruction. -/

namespace Sys2Proof.Machine

/-- Fetch: the bytes at PC and PC + 1, high byte first, PC read first, at any alignment (40_cycle.md R121, 20_memory.md
R64, R66; log 7). -/
def fetchWord (s : State) : Except Fault Word :=
  match memRead s s.pc.toNat with
  | .error e => .error e
  | .ok hi =>
    match memRead s (s.pc.toNat + 1) with
    | .error e => .error e
    | .ok lo => .ok (wordOfBytes hi lo)

/-- Decode the fetched word; an illegal one raises `UndecodableOpcode(w)` (40_cycle.md R122, 60_exceptions.md R282). -/
def decodeFetched (s : State) (w : Word) : Except Fault Instr :=
  match decode w with
  | .ok i => .ok i
  | .error _ => .error (.undecodableOpcode w s.pc)

/-- Fetch, then decode: a fetch error comes before a decode error (40_cycle.md R130). -/
def fetchInstr (s : State) : Except Fault Instr :=
  match fetchWord s with
  | .error e => .error e
  | .ok w => decodeFetched s w

/-- Place bytes where the next fetch reads them: at PC if both bytes of a word fit there, else at 0x200 with PC there;
and let the core run. Used by `State.withFetchWord` (log 17). -/
def placeAtFetch (s : State) (bs : List Byte) : State :=
  let pc := if s.pc.toNat + 1 < Config.memSize then s.pc else 0x200
  { s with mem := Memory.setBytes s.mem pc.toNat bs, pc := pc, halt := .running }

end Sys2Proof.Machine
end

