-- ==== Sys2Proof/Machine/Step.lean ====
section
/-! DEFINITION. One step: `cycle()` (40_cycle.md R120 to R123). -/

namespace Sys2Proof.Machine

/-- `cycle()`: a halted core has no step and answers the recorded error again (40_cycle.md R120, 60_exceptions.md R286);
a running one fetches, decodes and executes one instruction, and a fetch or decode error is the fatal-error entry. -/
def step (s : State) : Host.Outcome State Fault Refusal :=
  match s.halt with
  | .halted e => .fault e
  | .running =>
    match fetchInstr s with
    | .error e => raise e s
    | .ok i => exec i s

/-- The state whose next step runs the instruction with these bits: its two bytes at PC, nothing else changed from a
running state whose PC has room for a word (log 17 says how programs come to run). -/
def State.withFetchWord (s : State) (nbits w : Nat) : State := placeAtFetch s (tableBytes nbits w)

end Sys2Proof.Machine
end

