-- ==== Sys2Proof/Machine/HostOps.lean ====
section
/-! DEFINITION. The host's operations (60_exceptions.md R296 to R301, 70_reset_and_hazards.md R320, R325, R326): moves of
the second agent, made only between cycles (R297), and the interleaving of its moves with cycles (log 4). -/

namespace Sys2Proof.Machine

/-- One operation of the host (60_exceptions.md R296); `cycle()` is `step`. A key index of 16 or more cannot be passed:
"the model has no such move" (R298; log 14). -/
inductive HostCall where
  /-- `construct()`: a new running core (70_reset_and_hazards.md R320). -/
  | construct
  /-- `load(bytes)`: copy bytes to 0x200 (70_reset_and_hazards.md R325). -/
  | load (bytes : List Byte)
  /-- `press_key(k)` (60_exceptions.md R298). -/
  | pressKey (k : KeyIndex)
  /-- `release_key(k)` (60_exceptions.md R298). -/
  | releaseKey (k : KeyIndex)
  /-- Read the framebuffer: what the host gets is `readFramebuffer` (60_exceptions.md R299). -/
  | readFramebuffer
  /-- Read the sound timer: what the host gets is `readSoundTimer` (60_exceptions.md R300). -/
  | readSoundTimer
  /-- `tick_timers()` (60_exceptions.md R301). -/
  | tickTimers
deriving DecidableEq, Repr

/-- What the host reads of the framebuffer: the 64 x 32 pixels (60_exceptions.md R299). -/
def readFramebuffer (s : State) (px : Column) (py : Row) : Bool := s.fb.pixel px py

/-- What the host reads of the sound timer (60_exceptions.md R300). -/
def readSoundTimer (s : State) : Byte := s.st

/-- A timer after a tick: one less, and 0 stays 0 (60_exceptions.md R301). -/
def tickTimer (t : Byte) : Byte := if t.toNat > 0 then t - 1 else t

/-- `construct()`: every field as 10_state.md R38 says. The model's counter goes on, so that a new core's draws are not
the old core's (log 2). -/
def construct (s : State) : State := { State.reset with draws := s.draws }

/-- `load(bytes)`: the bytes at 0x200 up and nothing else; refused when they pass the end of memory
(70_reset_and_hazards.md R325, R326; log 14). -/
def load (bytes : List Byte) (s : State) : StepResult :=
  if loadOrigin + bytes.length ≤ Config.memSize then .next (s.setMem (Memory.setBytes s.mem loadOrigin bytes))
  else .refused (.loadTooLong bytes.length)

/-- The effect of a host call. It does not depend on HALT, and only `construct` changes HALT (10_state.md R35). -/
def hostCall (c : HostCall) (s : State) : StepResult :=
  match c with
  | .construct => .next (construct s)
  | .load bytes => load bytes s
  | .pressKey k => .next (s.setKey k 1)
  | .releaseKey k => .next (s.setKey k 0)
  | .readFramebuffer => .next s
  | .readSoundTimer => .next s
  | .tickTimers => .next ((s.setDt (tickTimer s.dt)).setSt (tickTimer s.st))

/-- A move of the whole system: a cycle of the engine or one call of the host (00_scope.md R17). -/
inductive Move where
  | cycle
  | host (c : HostCall)
deriving DecidableEq, Repr

/-- One move. -/
def move (m : Move) (s : State) : StepResult :=
  match m with
  | .cycle => step s
  | .host c => hostCall c s

/-- A sequence of moves, stopping at the first fault or refusal: any finite sequence of host calls may come between
two cycles (60_exceptions.md R297). -/
def runMoves : List Move → State → StepResult
  | [], s => .next s
  | m :: ms, s =>
    match move m s with
    | .next t => runMoves ms t
    | .fault e => .fault e
    | .refused r => .refused r

end Sys2Proof.Machine
end

