-- ==== Sys2Proof/Safety.lean ====
section
/-! DEFINITION. The terms claims use: the machine invariant, the ends of a run (70_reset_and_hazards.md R331), and the
frames: what an instruction leaves unchanged. -/

namespace Sys2Proof.Machine

/-- What every reachable state of the machine satisfies. Memory is in canonical form (20_memory.md R60). While the core
runs, every keypad cell is 0 or 1 (10_state.md R33), PC is at most 0x10FE and every stack entry, in use or stale, is at
most 0x1000 (the bounds of 40_cycle.md R126). After a fatal error those fields are unspecified (60_exceptions.md R284). -/
def State.Inv (s : State) : Prop :=
  Memory.wf s.mem = true ∧
  (s.halt = .running →
    (∀ k : KeyIndex, s.key[k] = 0 ∨ s.key[k] = 1) ∧
    s.pc.toNat ≤ 0x10FE ∧
    (∀ j : Fin 16, s.stack[j].toNat ≤ 0x1000))

/-- The run's end "idle": running, and the word at PC is a jump to itself (70_reset_and_hazards.md R331). -/
def State.Idle (s : State) : Prop :=
  s.halt = .running ∧ ∃ nnn : Addr12, fetchInstr s = .ok (.jp nnn) ∧ zextAddr nnn = s.pc

/-- "Waiting": running, the word at PC is Fx0A, and no key is pressed (70_reset_and_hazards.md R331). Not an end. -/
def State.Waiting (s : State) : Prop :=
  s.halt = .running ∧ (∃ x : RegIndex, fetchInstr s = .ok (.ldVxK x)) ∧ ∀ k : KeyIndex, s.key[k] = 0

/-- "Faulted": halted by a fatal error (70_reset_and_hazards.md R331). -/
def State.Faulted (s : State) : Prop := ∃ e : Fault, s.halt = .halted e

/-- A state the whole system can reach from construction by cycles and host calls, in any order and number
(60_exceptions.md R297). -/
def Reachable (s : State) : Prop := ∃ ms : List Move, runMoves ms State.reset = .next s

/-- Every byte of memory reads as before. -/
def SameMemory (s t : State) : Prop := ∀ a : Nat, Memory.byte t.mem a = Memory.byte s.mem a

/-- Every byte of memory outside the `n` bytes from `a` reads as before. -/
def SameMemoryOutside (s t : State) (a n : Nat) : Prop :=
  ∀ c : Nat, c < a ∨ a + n ≤ c → Memory.byte t.mem c = Memory.byte s.mem c

/-- Every register reads as before but those a predicate names. -/
def SameRegsBut (s t : State) (changed : RegIndex → Prop) : Prop := ∀ r : RegIndex, ¬ changed r → t.reg r = s.reg r

/-- The call stack is as before. -/
def SameStack (s t : State) : Prop := t.sp = s.sp ∧ t.stack = s.stack

/-- The timers are as before. -/
def SameTimers (s t : State) : Prop := t.dt = s.dt ∧ t.st = s.st

/-- The devices and the run state are as before: framebuffer, keypad, HALT. -/
def SameDevices (s t : State) : Prop := t.fb = s.fb ∧ t.key = s.key ∧ t.halt = s.halt

/-- Everything but registers and PC is as before: memory, I, call stack, timers, devices, run state. -/
def SameBesidesRegs (s t : State) : Prop :=
  SameMemory s t ∧ t.i = s.i ∧ SameStack s t ∧ SameTimers s t ∧ SameDevices s t

/-- PC has moved past the instruction: `PC + 2`, modulo 2^16 (40_cycle.md R124). -/
def Advanced (s t : State) : Prop := t.pc.toNat = (s.pc.toNat + 2) % 65536

/-- The sprite that `Dxyn` draws from the state `s` has a set bit at this pixel: row r of the n bytes from I, column col
counted from the most significant bit, both coordinates wrapped (44_display.md R231). -/
def SpriteCovers (s : State) (x y : RegIndex) (n : Fin 16) (px : Column) (py : Row) : Prop :=
  ∃ r col : Nat, r < n.val ∧ col < 8 ∧ px.val = ((s.reg x).toNat + col) % 64 ∧ py.val = ((s.reg y).toNat + r) % 32 ∧
    (Memory.byte s.mem (s.i.toNat + r)).getLsbD (7 - col) = true

/-- The instruction reads or writes the memory byte at offset `k` from I (20_memory.md R63): the rows of `Dxyn`, the
three digits of `Fx33`, the x + 1 registers of `Fx55`, the x registers of `Fx65` (with `FX65_INCLUDES_VX` false). -/
def AccessesOffset (i : Instr) (k : Nat) : Prop :=
  match i with
  | .drw _ _ n => k < n.val
  | .ldBVx _ => k < 3
  | .ldMemVx x => k ≤ x.val
  | .ldVxMem x => k < x.val
  | _ => False

/-- A fatal error has been taken: the machine goes to the halted state that records it (60_exceptions.md R283). -/
def Halts (r : StepResult) (e : Fault) : Prop := ∃ t : State, r = .next t ∧ t.halt = .halted e

end Sys2Proof.Machine
end

