-- ==== Sys2Proof/WellFormed.lean ====
section
/-! DEFINITION. Which words are instructions: the rows of spec/opcode_table.json as mask and value pairs, and the check
that a word lies in one of them (30_encoding.md R94 to R98). A term of `Instr` needs no check of its own: its register
numbers, row count, immediate and address have the widths of their encoding fields (30_encoding.md R92) as types, so
a term with an operand that does not fit its field cannot be written. What can be ill-formed is a WORD. -/

namespace Sys2Proof

/-- A row of the opcode table: the fixed bits (`mask`), their values, and the row's mnemonic. -/
structure TableRow where
  mnemonic : String
  mask : Word
  value : Word
deriving DecidableEq, Repr

/-- The word `w` has the fixed bits of the row. -/
def TableRow.covers (r : TableRow) (w : Word) : Bool := w &&& r.mask = r.value

/-- The opcode-table row of an instruction (spec/opcode_table.json, 30_encoding.md R94). -/
def Instr.row : Instr → TableRow
  | .cls => ⟨"CLS", 0xFFFF, 0x00E0⟩
  | .ret => ⟨"RET", 0xFFFF, 0x00EE⟩
  | .jp _ => ⟨"JP_nnn", 0xF000, 0x1000⟩
  | .call _ => ⟨"CALL_nnn", 0xF000, 0x2000⟩
  | .seImm _ _ => ⟨"SE_Vx__kk", 0xF000, 0x3000⟩
  | .sneImm _ _ => ⟨"SNE_Vx__kk", 0xF000, 0x4000⟩
  | .seReg _ _ => ⟨"SE_Vx__Vy", 0xF00F, 0x5000⟩
  | .ldImm _ _ => ⟨"LD_Vx__kk", 0xF000, 0x6000⟩
  | .addImm _ _ => ⟨"ADD_Vx__kk", 0xF000, 0x7000⟩
  | .ldReg _ _ => ⟨"LD_Vx__Vy", 0xF00F, 0x8000⟩
  | .orReg _ _ => ⟨"OR_Vx__Vy", 0xF00F, 0x8001⟩
  | .andReg _ _ => ⟨"AND_Vx__Vy", 0xF00F, 0x8002⟩
  | .xorReg _ _ => ⟨"XOR_Vx__Vy", 0xF00F, 0x8003⟩
  | .addReg _ _ => ⟨"ADD_Vx__Vy", 0xF00F, 0x8004⟩
  | .sub _ _ => ⟨"SUB_Vx__Vy", 0xF00F, 0x8005⟩
  | .shr _ _ => ⟨"SHR_Vx____Vy", 0xF00F, 0x8006⟩
  | .subn _ _ => ⟨"SUBN_Vx__Vy", 0xF00F, 0x8007⟩
  | .shl _ _ => ⟨"SHL_Vx____Vy", 0xF00F, 0x800E⟩
  | .sneReg _ _ => ⟨"SNE_Vx__Vy", 0xF00F, 0x9000⟩
  | .ldI _ => ⟨"LD_I__nnn", 0xF000, 0xA000⟩
  | .jpV0 _ => ⟨"JP_V0__nnn", 0xF000, 0xB000⟩
  | .rnd _ _ => ⟨"RND_Vx__kk", 0xF000, 0xC000⟩
  | .drw _ _ _ => ⟨"DRW_Vx__Vy__n", 0xF000, 0xD000⟩
  | .skp _ => ⟨"SKP_Vx", 0xF0FF, 0xE09E⟩
  | .sknp _ => ⟨"SKNP_Vx", 0xF0FF, 0xE0A1⟩
  | .ldVxDt _ => ⟨"LD_Vx__DT", 0xF0FF, 0xF007⟩
  | .ldVxK _ => ⟨"LD_Vx__K", 0xF0FF, 0xF00A⟩
  | .ldDtVx _ => ⟨"LD_DT__Vx", 0xF0FF, 0xF015⟩
  | .ldStVx _ => ⟨"LD_ST__Vx", 0xF0FF, 0xF018⟩
  | .addIVx _ => ⟨"ADD_I__Vx", 0xF0FF, 0xF01E⟩
  | .ldFVx _ => ⟨"LD_F__Vx", 0xF0FF, 0xF029⟩
  | .ldBVx _ => ⟨"LD_B__Vx", 0xF0FF, 0xF033⟩
  | .ldMemVx _ => ⟨"LD__I___Vx", 0xF0FF, 0xF055⟩
  | .ldVxMem _ => ⟨"LD_Vx___I", 0xF0FF, 0xF065⟩

/-- The whole table, one row per instruction (the operands named here do not matter: `Instr.row` ignores them). -/
def opcodeTable : List TableRow :=
  [Instr.row .cls, Instr.row .ret, Instr.row (.jp 0), Instr.row (.call 0), Instr.row (.seImm 0 0), Instr.row (.sneImm 0 0)] ++
  [Instr.row (.seReg 0 0), Instr.row (.ldImm 0 0), Instr.row (.addImm 0 0), Instr.row (.ldReg 0 0), Instr.row (.orReg 0 0), Instr.row (.andReg 0 0)] ++
  [Instr.row (.xorReg 0 0), Instr.row (.addReg 0 0), Instr.row (.sub 0 0), Instr.row (.shr 0 0), Instr.row (.subn 0 0), Instr.row (.shl 0 0)] ++
  [Instr.row (.sneReg 0 0), Instr.row (.ldI 0), Instr.row (.jpV0 0), Instr.row (.rnd 0 0), Instr.row (.drw 0 0 0), Instr.row (.skp 0)] ++
  [Instr.row (.sknp 0), Instr.row (.ldVxDt 0), Instr.row (.ldVxK 0), Instr.row (.ldDtVx 0), Instr.row (.ldStVx 0), Instr.row (.addIVx 0)] ++
  [Instr.row (.ldFVx 0), Instr.row (.ldBVx 0), Instr.row (.ldMemVx 0), Instr.row (.ldVxMem 0)]

/-- The word is covered by the opcode table; every other word is illegal (30_encoding.md R95, R98). -/
def legalWord (w : Word) : Bool := opcodeTable.any (fun r => r.covers w)

end Sys2Proof
end

