-- ==== Sys2Proof/Certificates/Slice0/Obligations.lean ====
section
/-! DEFINITION. The statements for the provers. Each docstring names the rules of spec/ it formalises. A statement about
an instruction's result says in one conclusion that the instruction completes, what it writes, and its frame.
`SameMemory` and `SameMemoryOutside` say the memory frame byte by byte through the model's read of one byte. -/

open Sys2Proof Sys2Proof.Machine

/-! ### Encoding -/

/-- Decoding the word of any instruction gives the instruction back, every operand at every value of its field
(30_encoding.md R91, R93). -/
def Obligations.DecodeOfEncode : Prop := ∀ i : Instr, decode (encode i) = .ok i

/-- A word that decodes is the word of the instruction it decodes to: no bit of it is dropped (30_encoding.md R91,
R93; the y field of 8xy6 and 8xyE is kept though it has no effect, R92). For 5xyN and 9xyN with N not 0 it rests on their
refusal, which is the spec's own reading and not the source's words (R98; DEDUCED, log 16). -/
def Obligations.EncodeOfDecode : Prop := ∀ (w : Word) (i : Instr), decode w = .ok i → encode i = w

/-- The decoder accepts exactly the words of the opcode table, each as an instruction of a row that covers it, and
refuses every other word by name (30_encoding.md R93, R95; spec/opcode_table.json). That 5xyN and 9xyN with N not 0 are
among the refused is a choice, the spec's own reading and not the source's words (R98; DEDUCED, log 16). -/
def Obligations.DecodeAcceptsExactlyTheTable : Prop :=
  ∀ w : Word,
    (legalWord w = true → ∃ i, decode w = .ok i ∧ i.row.covers w = true) ∧
    (legalWord w = false → decode w = .error (.undecodableOpcode w))

/-- The illegal words are those of the table of 30_encoding.md R96 (derived there from R93), category by category, with
the fields of w computed from its value. The clauses on categories 5 and 9 are a choice, the spec's own reading and not the
source's words (R98; DEDUCED, log 16). -/
def Obligations.IllegalWordsByCategory : Prop :=
  ∀ w : Word, decode w = .error (.undecodableOpcode w) ↔
    (w.toNat / 4096 = 0x0 ∧ w.toNat ≠ 0x00E0 ∧ w.toNat ≠ 0x00EE) ∨
    (w.toNat / 4096 = 0x5 ∧ w.toNat % 16 ≠ 0) ∨
    (w.toNat / 4096 = 0x8 ∧ w.toNat % 16 ∈ [0x8, 0x9, 0xA, 0xB, 0xC, 0xD, 0xF]) ∨
    (w.toNat / 4096 = 0x9 ∧ w.toNat % 16 ≠ 0) ∨
    (w.toNat / 4096 = 0xE ∧ w.toNat % 256 ∉ [0x9E, 0xA1]) ∨
    (w.toNat / 4096 = 0xF ∧ w.toNat % 256 ∉ [0x07, 0x0A, 0x15, 0x18, 0x1E, 0x29, 0x33, 0x55, 0x65])

/-- Words written out by hand from the patterns of 30_encoding.md R94, one or more of each format of R91, decode to the
instructions they stand for. -/
def Obligations.SampleWordsDecode : Prop :=
  decode 0x00EE = .ok .ret ∧ decode 0x1234 = .ok (.jp 0x234) ∧ decode 0x3A05 = .ok (.seImm 0xA 0x05) ∧
  decode 0x5AB0 = .ok (.seReg 0xA 0xB) ∧ decode 0x8AB5 = .ok (.sub 0xA 0xB) ∧
  decode 0xD125 = .ok (.drw 0x1 0x2 0x5) ∧ decode 0xE39E = .ok (.skp 0x3) ∧ decode 0xF265 = .ok (.ldVxMem 0x2)

/-! ### The cycle -/

/-- When the core runs and the two bytes at PC, the first the high byte, are the word of an instruction, a step is
that instruction's execution, from the same state and with nothing around it (40_cycle.md R121, R122, R123). That this
holds at an odd PC too is a choice: the decision of 92_eei_decisions.md D4, 90_conflicts.md C4 and 20_memory.md R66 (DESIGN
CHOICE, log 7). -/
def Obligations.StepRunsTheDecodedInstruction : Prop :=
  ∀ (s : State) (w : Word) (i : Instr), s.halt = .running → s.pc.toNat + 1 < 4096 →
    w.toNat = (Memory.byte s.mem s.pc.toNat).toNat * 256 + (Memory.byte s.mem (s.pc.toNat + 1)).toNat →
    decode w = .ok i → step s = exec i s

/-- A fetch outside memory is the fatal error `OutOfBoundsAccess(memory, a)`: a = PC if PC is at least 4096, and a =
4096 if PC = 4095, whose first byte is in memory (40_cycle.md R121). That the error is a next state with HALT set is
60_exceptions.md section 2 (92_eei_decisions.md D14; log 3); which address is recorded is the order of D15 (log 15), and
that an odd PC is no error of its own is D4 (log 7). -/
def Obligations.FetchOutsideMemoryHalts : Prop :=
  ∀ s : State, s.halt = .running →
    (4096 ≤ s.pc.toNat → Halts (step s) (.outOfBoundsAccess .memory s.pc.toNat s.pc)) ∧
    (s.pc.toNat = 4095 → Halts (step s) (.outOfBoundsAccess .memory 4096 s.pc))

/-- A fetched word that the opcode table does not cover is the fatal error `UndecodableOpcode(w)`, with the PC it was
fetched from (60_exceptions.md R282; the halted next state is 92_eei_decisions.md D14, log 3). That 5xyN and 9xyN with N
not 0 are such words is a choice, the spec's own reading and not the source's words (30_encoding.md R98; DEDUCED, log 16);
that PC may be odd is D4 (log 7). -/
def Obligations.IllegalWordHalts : Prop :=
  ∀ (s : State) (w : Word), s.halt = .running → s.pc.toNat + 1 < 4096 →
    w.toNat = (Memory.byte s.mem s.pc.toNat).toNat * 256 + (Memory.byte s.mem (s.pc.toNat + 1)).toNat →
    legalWord w = false → Halts (step s) (.undecodableOpcode w s.pc)

/-- A halted core has no step: every further cycle answers the recorded error (40_cycle.md section 1,
60_exceptions.md section 2; 92_eei_decisions.md D14; log 3). -/
def Obligations.HaltedCoreHasNoStep : Prop :=
  ∀ (s : State) (e : Fault), s.halt = .halted e → step s = .fault e

/-- Every instruction raises only the errors of 60_exceptions.md section 1, under their conditions, with the value and
the PC that section records: no other instruction, and no instruction in another case, halts the core. These clauses are
choices: the stack's at SP = 16 and SP = 0 (92_eei_decisions.md D3, log 6), the keypad's (D8, log 9), the offsets of `Fx65`
(D6, log 5), the exact addresses (D5, log 7), and the halted next state (D14, log 3). -/
def Obligations.InstructionsRaiseOnlyTheirErrors : Prop :=
  ∀ (i : Instr) (s t : State) (e : Fault), s.halt = .running → exec i s = .next t → t.halt = .halted e →
    match i, e with
    | .ret, .outOfBoundsAccess .stackUnderflow v pc => s.sp.val = 0 ∧ v = 0 ∧ pc = s.pc
    | .call _, .outOfBoundsAccess .stackOverflow v pc => s.sp.val = 16 ∧ v = 16 ∧ pc = s.pc
    | .skp x, .outOfBoundsAccess .keypad v pc => 16 ≤ (s.reg x).toNat ∧ v = (s.reg x).toNat ∧ pc = s.pc
    | .sknp x, .outOfBoundsAccess .keypad v pc => 16 ≤ (s.reg x).toNat ∧ v = (s.reg x).toNat ∧ pc = s.pc
    | i, .outOfBoundsAccess .memory a pc =>
      (∃ k, AccessesOffset i k ∧ a = s.i.toNat + k) ∧ 4096 ≤ a ∧ pc = s.pc
    | _, _ => False

/-! ### Reset and the invariant -/

/-- After construction every field is as the table of 10_state.md section 12 says: memory zero above the font, every
register, timer, key, stack entry and pixel zero, SP 0, PC at 0x200, running. The font is at 0 to 79, glyphs 0 to F in
order, five rows each, top row first (70_reset_and_hazards.md section 1; S1 of 95_test_vectors.md); the 80 byte values are
the model's choice, the table of 92_eei_decisions.md D16, PRESUMED (log 1). -/
def Obligations.ResetLeavesTheStatedValues : Prop :=
  (∀ a : Nat, 80 ≤ a → Memory.byte State.reset.mem a = 0) ∧
  (List.range 80).map (Memory.byte State.reset.mem) =
    ([0xF0, 0x90, 0x90, 0x90, 0xF0] ++ [0x20, 0x60, 0x20, 0x20, 0x70] ++
    [0xF0, 0x10, 0xF0, 0x80, 0xF0] ++ [0xF0, 0x10, 0xF0, 0x10, 0xF0] ++
    [0x90, 0x90, 0xF0, 0x10, 0x10] ++ [0xF0, 0x80, 0xF0, 0x10, 0xF0] ++
    [0xF0, 0x80, 0xF0, 0x90, 0xF0] ++ [0xF0, 0x10, 0x20, 0x40, 0x40] ++
    [0xF0, 0x90, 0xF0, 0x90, 0xF0] ++ [0xF0, 0x90, 0xF0, 0x10, 0xF0] ++
    [0xF0, 0x90, 0xF0, 0x90, 0x90] ++ [0xE0, 0x90, 0xE0, 0x90, 0xE0] ++
    [0xF0, 0x80, 0x80, 0x80, 0xF0] ++ [0xE0, 0x90, 0x90, 0x90, 0xE0] ++
    [0xF0, 0x80, 0xF0, 0x80, 0xF0] ++ [0xF0, 0x80, 0xF0, 0x80, 0x80] : List Byte) ∧
  (∀ r : RegIndex, State.reset.reg r = 0) ∧ State.reset.i = 0 ∧ State.reset.pc = 0x200 ∧ State.reset.sp = 0 ∧
  (∀ j : Fin 16, State.reset.stack[j] = 0) ∧ State.reset.dt = 0 ∧ State.reset.st = 0 ∧
  (∀ (px : Column) (py : Row), State.reset.fb.pixel px py = false) ∧
  (∀ k : KeyIndex, State.reset.key[k] = 0) ∧ State.reset.halt = .running

/-- The invariant holds after construction. -/
def Obligations.ResetSatisfiesTheInvariant : Prop := State.reset.Inv

/-- Every step keeps the invariant, from every state that has it: memory stays in canonical form, and while the core
runs its keypad cells stay 0 or 1, PC stays at most 0x10FE and the stack entries stay at most 0x1000, so that the
modulus of 40_cycle.md R124 is never needed (the reason R126 gives, derived there). The bound on the stack entries rests on
the value 2nnn pushes (92_eei_decisions.md D2, log 6), and a halted core is free of all but the first part (D14, log 3). -/
def Obligations.StepKeepsTheInvariant : Prop :=
  ∀ s t : State, s.Inv → step s = .next t → t.Inv

/-- Every host call keeps the invariant (60_exceptions.md section 7; that a bad key number has no call is
92_eei_decisions.md D20, log 14). -/
def Obligations.HostCallKeepsTheInvariant : Prop :=
  ∀ (c : HostCall) (s t : State), s.Inv → hostCall c s = .next t → t.Inv

/-- Every state the whole system reaches from construction, by cycles and host calls in any order and number, has the
invariant (60_exceptions.md R297 for the interleavings; 92_eei_decisions.md D2, D14 and D20, logs 3, 6 and 14). -/
def Obligations.ReachableStatesHaveTheInvariant : Prop := ∀ s : State, Reachable s → s.Inv

/-! ### Registers and the ALU -/

/-- `6xkk`, `7xkk` and `8xy0`: Vx takes the immediate, the sum with the immediate mod 2^8, or Vy; no flag, so VF changes
only as the destination; PC advances; nothing else changes (42_alu.md R170, R171, R172). The words are those of the rules' formats. -/
def Obligations.LoadAddImmediateAndMove : Prop :=
  ∀ (x y : RegIndex) (kk : Byte) (s : State),
    (∃ t, exec (.ldImm x kk) s = .next t ∧ t.reg x = kk ∧
      Advanced s t ∧ SameRegsBut s t (· = x) ∧ SameBesidesRegs s t) ∧
    (∃ t, exec (.addImm x kk) s = .next t ∧ (t.reg x).toNat = ((s.reg x).toNat + kk.toNat) % 256 ∧
      Advanced s t ∧ SameRegsBut s t (· = x) ∧ SameBesidesRegs s t) ∧
    (∃ t, exec (.ldReg x y) s = .next t ∧ t.reg x = s.reg y ∧
      Advanced s t ∧ SameRegsBut s t (· = x) ∧ SameBesidesRegs s t) ∧
    (encode (.ldImm x kk)).toNat = 0x6000 + 256 * x.val + kk.toNat ∧
    (encode (.addImm x kk)).toNat = 0x7000 + 256 * x.val + kk.toNat ∧
    (encode (.ldReg x y)).toNat = 0x8000 + 256 * x.val + 16 * y.val

/-- `8xy1`, `8xy2`, `8xy3`: Vx takes the OR, AND, XOR of Vx and Vy bit by bit; VF changes only as the destination, which
is the decision of 92_eei_decisions.md D11 (log 12); PC advances; nothing else changes (42_alu.md section 2). -/
def Obligations.LogicBitByBit : Prop :=
  ∀ (x y : RegIndex) (s : State),
    (∃ t, exec (.orReg x y) s = .next t ∧
      (∀ j < 8, (t.reg x).getLsbD j = ((s.reg x).getLsbD j || (s.reg y).getLsbD j)) ∧
      Advanced s t ∧ SameRegsBut s t (· = x) ∧ SameBesidesRegs s t) ∧
    (∃ t, exec (.andReg x y) s = .next t ∧
      (∀ j < 8, (t.reg x).getLsbD j = ((s.reg x).getLsbD j && (s.reg y).getLsbD j)) ∧
      Advanced s t ∧ SameRegsBut s t (· = x) ∧ SameBesidesRegs s t) ∧
    (∃ t, exec (.xorReg x y) s = .next t ∧
      (∀ j < 8, (t.reg x).getLsbD j = ((s.reg x).getLsbD j ^^ (s.reg y).getLsbD j)) ∧
      Advanced s t ∧ SameRegsBut s t (· = x) ∧ SameBesidesRegs s t)

/-- `8xy4`: Vx takes the sum mod 2^8, unless x = F; VF takes 1 if the unwrapped sum exceeds 255, else 0, also when
x = F; both operands are those from before (42_alu.md R176). The word is that of the rule's format. -/
def Obligations.AddWithCarry : Prop :=
  ∀ (x y : RegIndex) (s : State), ∃ t, exec (.addReg x y) s = .next t ∧
    (x ≠ 0xF → (t.reg x).toNat = ((s.reg x).toNat + (s.reg y).toNat) % 256) ∧
    t.reg 0xF = (if (s.reg x).toNat + (s.reg y).toNat > 255 then 1 else 0) ∧
    Advanced s t ∧ SameRegsBut s t (fun r => r = x ∨ r = 0xF) ∧ SameBesidesRegs s t ∧
    (encode (.addReg x y)).toNat = 0x8004 + 256 * x.val + 16 * y.val

/-- `8xy5` and `8xy7`: Vx takes Vx - Vy, or Vy - Vx, mod 2^8, unless x = F; VF takes 1 if the minuend is strictly
greater, else 0, also when x = F (42_alu.md R177, R179). The words are those of the rules' formats. -/
def Obligations.SubtractWithStrictNotBorrow : Prop :=
  ∀ (x y : RegIndex) (s : State),
    (∃ t, exec (.sub x y) s = .next t ∧
      (x ≠ 0xF → (t.reg x).toNat = (256 + (s.reg x).toNat - (s.reg y).toNat) % 256) ∧
      t.reg 0xF = (if (s.reg x).toNat > (s.reg y).toNat then 1 else 0) ∧
      Advanced s t ∧ SameRegsBut s t (fun r => r = x ∨ r = 0xF) ∧ SameBesidesRegs s t) ∧
    (∃ t, exec (.subn x y) s = .next t ∧
      (x ≠ 0xF → (t.reg x).toNat = (256 + (s.reg y).toNat - (s.reg x).toNat) % 256) ∧
      t.reg 0xF = (if (s.reg y).toNat > (s.reg x).toNat then 1 else 0) ∧
      Advanced s t ∧ SameRegsBut s t (fun r => r = x ∨ r = 0xF) ∧ SameBesidesRegs s t) ∧
    (encode (.sub x y)).toNat = 0x8005 + 256 * x.val + 16 * y.val ∧
    (encode (.subn x y)).toNat = 0x8007 + 256 * x.val + 16 * y.val

/-- `8xy6` and `8xyE`: Vx takes Vx / 2, or 2 Vx mod 2^8, unless x = F; VF takes the bit shifted out, bit 0 or bit 7 of
the old Vx, also when x = F; Vy plays no part (42_alu.md R178, R180). The words are those of the rules' formats. -/
def Obligations.ShiftsMoveTheBitIntoVF : Prop :=
  ∀ (x y : RegIndex) (s : State),
    (∃ t, exec (.shr x y) s = .next t ∧
      (x ≠ 0xF → (t.reg x).toNat = (s.reg x).toNat / 2) ∧ (t.reg 0xF).toNat = (s.reg x).toNat % 2 ∧
      Advanced s t ∧ SameRegsBut s t (fun r => r = x ∨ r = 0xF) ∧ SameBesidesRegs s t) ∧
    (∃ t, exec (.shl x y) s = .next t ∧
      (x ≠ 0xF → (t.reg x).toNat = 2 * (s.reg x).toNat % 256) ∧ (t.reg 0xF).toNat = (s.reg x).toNat / 128 ∧
      Advanced s t ∧ SameRegsBut s t (fun r => r = x ∨ r = 0xF) ∧ SameBesidesRegs s t) ∧
    (encode (.shr x y)).toNat = 0x8006 + 256 * x.val + 16 * y.val ∧
    (encode (.shl x y)).toNat = 0x800E + 256 * x.val + 16 * y.val

/-- `Cxkk`: Vx takes the free draw at the counter AND the immediate, so every bit clear in kk is clear in Vx, whatever the
draw; the draw is counted, so the next one is another free value (42_alu.md section 4; 92_eei_decisions.md D12; log 2).
The statement holds for every value of the free byte: `Config.randomByte` has no body. -/
def Obligations.RandomByteIsMasked : Prop :=
  ∀ (x : RegIndex) (kk : Byte) (s : State), ∃ t, exec (.rnd x kk) s = .next t ∧
    t.reg x = Config.randomByte s.draws &&& kk ∧ (∀ j < 8, kk.getLsbD j = false → (t.reg x).getLsbD j = false) ∧
    (kk = 0 → t.reg x = 0) ∧ t.draws = s.draws + 1 ∧
    Advanced s t ∧ SameRegsBut s t (· = x) ∧ SameBesidesRegs s t

/-! ### Control -/

/-- `1nnn` and `Bnnn`: PC takes nnn, or nnn plus V0, a sum that needs no wrap; nothing else changes (41_control.md
R141, R147). The words are those of the rules' formats. -/
def Obligations.JumpsSetPc : Prop :=
  ∀ (nnn : Addr12) (s : State),
    (∃ t, exec (.jp nnn) s = .next t ∧ t.pc.toNat = nnn.toNat ∧ t = { s with pc := t.pc }) ∧
    (∃ t, exec (.jpV0 nnn) s = .next t ∧ t.pc.toNat = nnn.toNat + (s.reg 0).toNat ∧ t = { s with pc := t.pc }) ∧
    (encode (.jp nnn)).toNat = 0x1000 + nnn.toNat ∧
    (encode (.jpV0 nnn)).toNat = 0xB000 + nnn.toNat

/-- `3xkk`, `4xkk`, `5xy0`, `9xy0`: PC takes PC + 4 when the condition holds, else PC + 2; nothing else changes
(41_control.md R143, R144, R145, R146). The words are those of the rules' formats. -/
def Obligations.CompareSkips : Prop :=
  ∀ (x y : RegIndex) (kk : Byte) (s : State),
    exec (.seImm x kk) s = .next { s with pc := if s.reg x = kk then s.pc + 4 else s.pc + 2 } ∧
    exec (.sneImm x kk) s = .next { s with pc := if s.reg x ≠ kk then s.pc + 4 else s.pc + 2 } ∧
    exec (.seReg x y) s = .next { s with pc := if s.reg x = s.reg y then s.pc + 4 else s.pc + 2 } ∧
    exec (.sneReg x y) s = .next { s with pc := if s.reg x ≠ s.reg y then s.pc + 4 else s.pc + 2 } ∧
    (encode (.seImm x kk)).toNat = 0x3000 + 256 * x.val + kk.toNat ∧
    (encode (.sneImm x kk)).toNat = 0x4000 + 256 * x.val + kk.toNat ∧
    (encode (.seReg x y)).toNat = 0x5000 + 256 * x.val + 16 * y.val ∧
    (encode (.sneReg x y)).toNat = 0x9000 + 256 * x.val + 16 * y.val

/-- `2nnn` with SP below 16: the entry at SP takes PC + 2, SP goes up by one, PC takes nnn; every other entry and
everything else stays (41_control.md section on 2nnn; the value pushed and the order are 92_eei_decisions.md D2 and
D3, log 6). -/
def Obligations.CallPushesTheReturnAddress : Prop :=
  ∀ (nnn : Addr12) (s : State), s.sp.val < 16 → ∃ t, exec (.call nnn) s = .next t ∧
    t.sp.val = s.sp.val + 1 ∧ t.pc.toNat = nnn.toNat ∧
    (∀ j : Fin 16, t.stack[j] = if j.val = s.sp.val then s.pc + 2 else s.stack[j]) ∧
    SameMemory s t ∧ t.v = s.v ∧ t.i = s.i ∧ SameTimers s t ∧ SameDevices s t

/-- `00EE` with SP above 0: SP goes down by one and PC takes the entry at the new SP, nothing added; the entries and
everything else stay (41_control.md section on 00EE; 92_eei_decisions.md D2 and D3, log 6). -/
def Obligations.ReturnPopsTheReturnAddress : Prop :=
  ∀ (s : State) (j : Fin 16), s.sp.val = j.val + 1 → ∃ t, exec .ret s = .next t ∧
    t.sp.val = j.val ∧ t.pc = s.stack[j] ∧ t.stack = s.stack ∧
    SameMemory s t ∧ t.v = s.v ∧ t.i = s.i ∧ SameTimers s t ∧ SameDevices s t

/-- A call with SP = 16 and a return with SP = 0 are the stack overflow and underflow, recording SP and PC
(41_control.md, 60_exceptions.md section 1; 92_eei_decisions.md D3 and D14, logs 3 and 6). -/
def Obligations.StackOverflowAndUnderflowHalt : Prop :=
  ∀ (nnn : Addr12) (s : State),
    (s.sp.val = 16 → Halts (exec (.call nnn) s) (.outOfBoundsAccess .stackOverflow 16 s.pc)) ∧
    (s.sp.val = 0 → Halts (exec .ret s) (.outOfBoundsAccess .stackUnderflow 0 s.pc))

/-- A call followed by a return restores PC to the instruction after the call and SP to its value before, from any
state with room for one more call (the round trip quoted in 41_control.md at 2nnn; 92_eei_decisions.md D2, log 6). -/
def Obligations.CallThenReturnComesBack : Prop :=
  ∀ (nnn : Addr12) (s : State), s.sp.val < 16 → ∃ t u, exec (.call nnn) s = .next t ∧ exec .ret t = .next u ∧
    Advanced s u ∧ u.sp = s.sp ∧ u.v = s.v ∧ u.i = s.i ∧ SameMemory s u

/-! ### Index register and memory -/

/-- `Annn` and `Fx1E`: I takes nnn, or I + Vx mod 2^16, with no 12-bit wrap and no flag; PC advances; nothing else
changes (43_index_memory.md R200, R201). The words are those of the rules' formats. -/
def Obligations.SetAndAddIndex : Prop :=
  ∀ (nnn : Addr12) (x : RegIndex) (s : State),
    (∃ t, exec (.ldI nnn) s = .next t ∧ t.i.toNat = nnn.toNat ∧ Advanced s t ∧ t = { s with i := t.i, pc := t.pc }) ∧
    (∃ t, exec (.addIVx x) s = .next t ∧ t.i.toNat = (s.i.toNat + (s.reg x).toNat) % 65536 ∧ Advanced s t ∧
      t = { s with i := t.i, pc := t.pc }) ∧
    (encode (.ldI nnn)).toNat = 0xA000 + nnn.toNat ∧
    (encode (.addIVx x)).toNat = 0xF01E + 256 * x.val

/-- `Fx29`: I takes 5 Vx if Vx is below 16, and stays if Vx is 16 or more (43_index_memory.md section on Fx29; the
second case is the decision of 92_eei_decisions.md D7, log 8); PC advances; nothing else changes. -/
def Obligations.GlyphAddressOfDigit : Prop :=
  ∀ (x : RegIndex) (s : State), ∃ t, exec (.ldFVx x) s = .next t ∧
    ((s.reg x).toNat < 16 → t.i.toNat = (s.reg x).toNat * 5) ∧ (16 ≤ (s.reg x).toNat → t.i = s.i) ∧
    Advanced s t ∧ t = { s with i := t.i, pc := t.pc }

/-- `Fx33` with its three bytes in memory: hundreds, tens and units of Vx at I, I + 1, I + 2; every other byte, every
register and everything else stays (43_index_memory.md section on Fx33; the address bound is exact, 92_eei_decisions.md
D5, log 7). Memory in canonical form is the invariant's first part. -/
def Obligations.StoreDecimalDigits : Prop :=
  ∀ (x : RegIndex) (s : State), Memory.wf s.mem = true → s.i.toNat + 3 ≤ 4096 →
    ∃ t, exec (.ldBVx x) s = .next t ∧
      (Memory.byte t.mem s.i.toNat).toNat = (s.reg x).toNat / 100 ∧
      (Memory.byte t.mem (s.i.toNat + 1)).toNat = (s.reg x).toNat / 10 % 10 ∧
      (Memory.byte t.mem (s.i.toNat + 2)).toNat = (s.reg x).toNat % 10 ∧
      SameMemoryOutside s t s.i.toNat 3 ∧ Advanced s t ∧
      t.v = s.v ∧ t.i = s.i ∧ SameStack s t ∧ SameTimers s t ∧ SameDevices s t

/-- `Fx55` with its x + 1 bytes in memory: V0 to Vx at I to I + x; every other byte, every register, I and everything
else stays (43_index_memory.md section on Fx55; that I stays is 92_eei_decisions.md D10, log 11). -/
def Obligations.StoreRegistersThroughVx : Prop :=
  ∀ (x : RegIndex) (s : State), Memory.wf s.mem = true → s.i.toNat + x.val + 1 ≤ 4096 →
    ∃ t, exec (.ldMemVx x) s = .next t ∧
      (∀ j : RegIndex, j.val ≤ x.val → Memory.byte t.mem (s.i.toNat + j.val) = s.reg j) ∧
      SameMemoryOutside s t s.i.toNat (x.val + 1) ∧ Advanced s t ∧
      t.v = s.v ∧ t.i = s.i ∧ SameStack s t ∧ SameTimers s t ∧ SameDevices s t

/-- `Fx65` with its x bytes in memory, or with x = 0 at any I: V0 to V(x-1) take the bytes from I up, Vx and the
registers above stay, memory, I and everything else stays (43_index_memory.md section on Fx65; the bound is
90_conflicts.md C1 and 92_eei_decisions.md D6, log 5; that I stays is D10, log 11). -/
def Obligations.LoadRegistersBelowVx : Prop :=
  ∀ (x : RegIndex) (s : State), x = 0 ∨ s.i.toNat + x.val ≤ 4096 →
    ∃ t, exec (.ldVxMem x) s = .next t ∧
      (∀ j : RegIndex, j.val < x.val → t.reg j = Memory.byte s.mem (s.i.toNat + j.val)) ∧
      SameRegsBut s t (fun r => r.val < x.val) ∧ Advanced s t ∧ SameBesidesRegs s t

/-- Storing V0 to Vx with `Fx55` and loading with `Fx65`, whatever the registers hold in between, restores V0 to
V(x-1) and leaves the others, Vx among them (the corner case of 43_index_memory.md on Fx65). Two choices stand behind it:
`Fx65` leaves Vx (92_eei_decisions.md D6, log 5), and the load reads at the I that `Fx55` leaves unchanged (D10, log 11). -/
def Obligations.StoreThenLoadRestoresBelowVx : Prop :=
  ∀ (x : RegIndex) (s : State) (v : Vector Byte 16), Memory.wf s.mem = true → s.i.toNat + x.val + 1 ≤ 4096 →
    ∃ t u, exec (.ldMemVx x) s = .next t ∧ exec (.ldVxMem x) { t with v := v } = .next u ∧
      ∀ r : RegIndex, u.reg r = if r.val < x.val then s.reg r else v[r]

/-- An instruction that accesses memory through I halts with `OutOfBoundsAccess(memory, a)` for the first of its
addresses, in ascending order, that is 4096 or more, with no wrap at 0xFFFF (20_memory.md R62, R76; 92_eei_decisions.md
D5, D14 and D15, logs 3, 7 and 15; the offsets of `Fx65` are those of D6, log 5). -/
def Obligations.FirstBadAddressHalts : Prop :=
  ∀ (i : Instr) (s : State) (k : Nat), AccessesOffset i k → (∀ j < k, s.i.toNat + j < 4096) →
    4096 ≤ s.i.toNat + k → Halts (exec i s) (.outOfBoundsAccess .memory (s.i.toNat + k) s.pc)

/-- A word stored by `Fx55` is what a fetch at its address reads next: self-modifying code needs no synchronisation
(20_memory.md R74, inferred there from the order of accesses). That the fetch succeeds at an odd I + j too is a choice: the
decision of 92_eei_decisions.md D4, 90_conflicts.md C4 and 20_memory.md R66 (DESIGN CHOICE, log 7). -/
def Obligations.FetchSeesStoredBytes : Prop :=
  ∀ (x j k : RegIndex) (s : State), k.val = j.val + 1 → k.val ≤ x.val → Memory.wf s.mem = true →
    s.i.toNat + x.val + 1 ≤ 4096 → ∃ t w, exec (.ldMemVx x) s = .next t ∧
      fetchWord (t.setPc (BitVec.ofNat 16 (s.i.toNat + j.val))) = .ok w ∧
      w.toNat = (s.reg j).toNat * 256 + (s.reg k).toNat

/-! ### Framebuffer -/

/-- `00E0`: every pixel is clear whatever it was; PC advances; nothing else changes, VF among it (44_display.md
R230). The word is 0x00E0. -/
def Obligations.ClearScreen : Prop :=
  ∀ s : State, ∃ t, exec .cls s = .next t ∧ (∀ (px : Column) (py : Row), t.fb.pixel px py = false) ∧
    Advanced s t ∧ SameMemory s t ∧ t.v = s.v ∧ t.i = s.i ∧ SameStack s t ∧ SameTimers s t ∧
    t.key = s.key ∧ t.halt = s.halt ∧
    encode .cls = 0x00E0

/-- `Dxyn` with its n bytes in memory, or with n = 0 at any I: exactly the pixels under a set bit of the sprite flip,
on a screen that wraps on both axes; VF is 1 if some flipped pixel was set before, else 0; both coordinates are the
registers from before, also with x or y = F; every other register, memory and everything else stays. The loop of
44_display.md section on Dxyn refines this picture because no pixel is touched twice (R233, inferred there; operand order:
92_eei_decisions.md D9, log 10). -/
def Obligations.DrawFlipsExactlyTheSprite : Prop :=
  ∀ (x y : RegIndex) (n : Fin 16) (s : State), n = 0 ∨ s.i.toNat + n.val ≤ 4096 →
    ∃ t, exec (.drw x y n) s = .next t ∧
      (∀ (px : Column) (py : Row),
        (SpriteCovers s x y n px py → t.fb.pixel px py = !s.fb.pixel px py) ∧
        (¬ SpriteCovers s x y n px py → t.fb.pixel px py = s.fb.pixel px py)) ∧
      ((∃ px py, SpriteCovers s x y n px py ∧ s.fb.pixel px py = true) → t.reg 0xF = 1) ∧
      ((¬ ∃ px py, SpriteCovers s x y n px py ∧ s.fb.pixel px py = true) → t.reg 0xF = 0) ∧
      Advanced s t ∧ SameRegsBut s t (· = 0xF) ∧ SameMemory s t ∧ t.i = s.i ∧ SameStack s t ∧ SameTimers s t ∧
      t.key = s.key ∧ t.halt = s.halt

/-- Drawing a sprite twice at the same coordinates, with neither coordinate in VF, restores the framebuffer, and the
second draw reports a collision exactly if the first set some pixel (the example quoted in 44_display.md at Dxyn). -/
def Obligations.DrawTwiceRestoresTheScreen : Prop :=
  ∀ (x y : RegIndex) (n : Fin 16) (s : State), x ≠ 0xF → y ≠ 0xF → n = 0 ∨ s.i.toNat + n.val ≤ 4096 →
    ∃ t u, exec (.drw x y n) s = .next t ∧ exec (.drw x y n) t = .next u ∧ u.fb = s.fb ∧
      (u.reg 0xF = 1 ↔ ∃ px py, SpriteCovers s x y n px py ∧ s.fb.pixel px py = false)

/-! ### Keypad and timers -/

/-- `Ex9E` and `ExA1` with Vx below 16: PC takes PC + 4 if key Vx is pressed (its cell is not 0, 92_eei_decisions.md D17,
log 13), or is not pressed, else PC + 2; nothing else changes (45_keypad_timers.md; D8, log 9). -/
def Obligations.KeySkips : Prop :=
  ∀ (x : RegIndex) (k : KeyIndex) (s : State), (s.reg x).toNat = k.val →
    exec (.skp x) s = .next { s with pc := if s.key[k] ≠ 0 then s.pc + 4 else s.pc + 2 } ∧
    exec (.sknp x) s = .next { s with pc := if s.key[k] = 0 then s.pc + 4 else s.pc + 2 }

/-- `Ex9E` and `ExA1` with Vx of 16 or more halt with `OutOfBoundsAccess(keypad, Vx)`; the index is not masked
(45_keypad_timers.md section on key indexes; 92_eei_decisions.md D8 and D14, logs 3 and 9). -/
def Obligations.KeyIndexOutOfRangeHalts : Prop :=
  ∀ (x : RegIndex) (s : State), 16 ≤ (s.reg x).toNat →
    Halts (exec (.skp x) s) (.outOfBoundsAccess .keypad (s.reg x).toNat s.pc) ∧
    Halts (exec (.sknp x) s) (.outOfBoundsAccess .keypad (s.reg x).toNat s.pc)

/-- `Fx0A` with some key pressed: Vx takes the lowest such key's index and PC advances; nothing else changes
(45_keypad_timers.md section on Fx0A; a held key counts, 92_eei_decisions.md D23, log 13). -/
def Obligations.KeyWaitTakesTheLowestKey : Prop :=
  ∀ (x : RegIndex) (k : KeyIndex) (s : State), s.key[k] ≠ 0 → (∀ j : KeyIndex, j < k → s.key[j] = 0) →
    ∃ t, exec (.ldVxK x) s = .next t ∧ (t.reg x).toNat = k.val ∧
      Advanced s t ∧ SameRegsBut s t (· = x) ∧ SameBesidesRegs s t

/-- `Fx0A` with no key pressed changes no state at all, PC included (45_keypad_timers.md section on Fx0A;
92_eei_decisions.md D24, log 13). -/
def Obligations.KeyWaitWithoutAKeyChangesNothing : Prop :=
  ∀ (x : RegIndex) (s : State), (∀ k : KeyIndex, s.key[k] = 0) → exec (.ldVxK x) s = .next s

/-- `Fx07`, `Fx15`, `Fx18`: Vx takes DT, DT takes Vx, ST takes Vx; PC advances; nothing else changes
(45_keypad_timers.md R253, R254, R255). The words are those of the rules' formats. -/
def Obligations.TimerTransfers : Prop :=
  ∀ (x : RegIndex) (s : State),
    (∃ t, exec (.ldVxDt x) s = .next t ∧ t.reg x = s.dt ∧ Advanced s t ∧ SameRegsBut s t (· = x) ∧
      SameBesidesRegs s t) ∧
    exec (.ldDtVx x) s = .next { s with dt := s.reg x, pc := s.pc + 2 } ∧
    exec (.ldStVx x) s = .next { s with st := s.reg x, pc := s.pc + 2 } ∧
    (encode (.ldVxDt x)).toNat = 0xF007 + 256 * x.val ∧
    (encode (.ldDtVx x)).toNat = 0xF015 + 256 * x.val ∧
    (encode (.ldStVx x)).toNat = 0xF018 + 256 * x.val

/-! ### Whole-machine rules: which instructions may change what, when no fatal error is taken -/

/-- Memory is written by `Fx33` and `Fx55` alone, and I by `Annn`, `Fx1E` and `Fx29` alone (20_memory.md R63,
10_state.md R25, 43_index_memory.md R206, which is derived there). That `Fx55` and `Fx65` leave I is a choice
(92_eei_decisions.md D10, log 11). -/
def Obligations.MemoryAndIndexWriters : Prop :=
  ∀ (i : Instr) (s t : State), s.halt = .running → exec i s = .next t → t.halt = .running →
    ((∀ x, i ≠ .ldBVx x) → (∀ x, i ≠ .ldMemVx x) → SameMemory s t) ∧
    ((∀ a, i ≠ .ldI a) → (∀ x, i ≠ .addIVx x) → (∀ x, i ≠ .ldFVx x) → t.i = s.i)

/-- SP and the stack entries change by `2nnn` and `00EE` alone, SP by at most one (10_state.md section 6; how the two move
SP and the entries is the decision of 92_eei_decisions.md D3, log 6). -/
def Obligations.StackWriters : Prop :=
  ∀ (i : Instr) (s t : State), s.halt = .running → exec i s = .next t → t.halt = .running →
    ((∀ a, i ≠ .call a) → i ≠ .ret → t.sp = s.sp) ∧ ((∀ a, i ≠ .call a) → t.stack = s.stack) ∧
    t.sp.val ≤ s.sp.val + 1 ∧ s.sp.val ≤ t.sp.val + 1

/-- The framebuffer is written by `00E0` and `Dxyn` alone, the timers by `Fx15` and `Fx18` alone (the core never
decrements them, 92_eei_decisions.md D13, log 4), and no instruction writes the keypad (60_exceptions.md sections 5 and 6;
10_state.md sections 7, 8). -/
def Obligations.DeviceWriters : Prop :=
  ∀ (i : Instr) (s t : State), s.halt = .running → exec i s = .next t → t.halt = .running →
    (i ≠ .cls → (∀ x y n, i ≠ .drw x y n) → t.fb = s.fb) ∧
    ((∀ x, i ≠ .ldDtVx x) → t.dt = s.dt) ∧ ((∀ x, i ≠ .ldStVx x) → t.st = s.st) ∧ t.key = s.key

/-- VF changes only by the six instructions that write a flag and by the instructions whose destination is VF
(10_state.md sections 2 and 3). Two choices stand behind it: 8xy1 to 8xy3 leave VF unless it is the destination
(92_eei_decisions.md D11, log 12), and `Fx65` never reaches VF (D6, log 5). -/
def Obligations.FlagWriters : Prop :=
  ∀ (i : Instr) (s t : State), s.halt = .running → exec i s = .next t → t.halt = .running →
    t.reg 0xF = s.reg 0xF ∨
    match i with
    | .addReg _ _ | .sub _ _ | .shr _ _ | .subn _ _ | .shl _ _ | .drw _ _ _ => True
    | .ldImm x _ | .addImm x _ | .ldReg x _ | .orReg x _ | .andReg x _ | .xorReg x _ | .rnd x _ | .ldVxDt x
    | .ldVxK x => x = 0xF
    | _ => False

/-- The next PC by class of instruction: a jump, call or return sets it, a skip gives PC + 2 or PC + 4, the key wait
gives PC or PC + 2, every other instruction PC + 2 (40_cycle.md section 2; the return adds nothing, 92_eei_decisions.md D2,
log 6). -/
def Obligations.NextPcByClass : Prop :=
  ∀ (i : Instr) (s t : State), s.halt = .running → exec i s = .next t → t.halt = .running →
    match i with
    | .jp nnn | .call nnn => t.pc = nnn.setWidth 16
    | .jpV0 nnn => t.pc = nnn.setWidth 16 + (s.reg 0).setWidth 16
    | .ret => ∃ j : Fin 16, s.sp.val = j.val + 1 ∧ t.pc = s.stack[j]
    | .seImm _ _ | .sneImm _ _ | .seReg _ _ | .sneReg _ _ | .skp _ | .sknp _ => t.pc = s.pc + 2 ∨ t.pc = s.pc + 4
    | .ldVxK _ => t.pc = s.pc ∨ t.pc = s.pc + 2
    | _ => t.pc = s.pc + 2

/-! ### The host -/

/-- `load` of a sequence that fits puts byte j at 0x200 + j and changes no other byte and no other field
(70_reset_and_hazards.md section 2; 92_eei_decisions.md D22); one that does not fit is refused (D25, log 14). -/
def Obligations.LoadCopiesOrRefuses : Prop :=
  ∀ (bytes : List Byte) (s : State), Memory.wf s.mem = true →
    (bytes.length ≤ 3584 → ∃ t, hostCall (.load bytes) s = .next t ∧
      (∀ (j : Nat) (h : j < bytes.length), Memory.byte t.mem (0x200 + j) = bytes[j]) ∧
      SameMemoryOutside s t 0x200 bytes.length ∧ t = { s with mem := t.mem }) ∧
    (3584 < bytes.length → hostCall (.load bytes) s = .refused (.loadTooLong bytes.length))

/-- `press_key` and `release_key` write 1 and 0 into their cell alone (60_exceptions.md section 7; 92_eei_decisions.md D20,
log 14). -/
def Obligations.PressAndReleaseWriteOneCell : Prop :=
  ∀ (k : KeyIndex) (s : State),
    (∃ t, hostCall (.pressKey k) s = .next t ∧ (∀ j : KeyIndex, t.key[j] = if j = k then 1 else s.key[j]) ∧
      t = { s with key := t.key }) ∧
    (∃ t, hostCall (.releaseKey k) s = .next t ∧ (∀ j : KeyIndex, t.key[j] = if j = k then 0 else s.key[j]) ∧
      t = { s with key := t.key })

/-- `tick_timers` takes one off each timer that is not zero, and a timer at zero stays (60_exceptions.md section 7;
92_eei_decisions.md D13, log 4). -/
def Obligations.TickStopsAtZero : Prop :=
  ∀ s : State, ∃ t, hostCall .tickTimers s = .next t ∧ t.dt.toNat = s.dt.toNat - 1 ∧ t.st.toNat = s.st.toNat - 1 ∧
    t = { s with dt := t.dt, st := t.st }

/-- The host reads the pixel of column px and row py as cell px + 64 py, reading changes nothing, and no host call but a
new construction writes the framebuffer (60_exceptions.md R299, 44_display.md R232). -/
def Obligations.HostReadsTheFramebuffer : Prop :=
  ∀ s : State, hostCall .readFramebuffer s = .next s ∧
    (∀ (px : Column) (py : Row),
      readFramebuffer s px py = s.fb[px.val + 64 * py.val]'(by have := px.isLt; have := py.isLt; omega)) ∧
    (∀ (c : HostCall) (t : State), c ≠ .construct → hostCall c s = .next t → t.fb = s.fb)

/-- Only construction leaves the halted state: every other move of a halted core either answers the recorded error or
leaves HALT as it is, and construction gives the state after reset, whose only other difference is the model's own
counter (10_state.md section 10, 60_exceptions.md section 2; 92_eei_decisions.md D14; logs 2 and 3). -/
def Obligations.OnlyConstructionRestarts : Prop :=
  (∀ (m : Move) (s t : State) (e : Fault), s.halt = .halted e → m ≠ .host .construct → move m s = .next t →
    t.halt = .halted e) ∧
  (∀ s : State, ∃ t, hostCall .construct s = .next t ∧ t = { State.reset with draws := s.draws })

/-- From an idle state a cycle leaves all state unchanged, and so does a cycle of a waiting one
(70_reset_and_hazards.md section 5; 92_eei_decisions.md D18, log 13). -/
def Obligations.IdleAndWaitingStatesStay : Prop :=
  ∀ s : State, (s.Idle → step s = .next s) ∧ (s.Waiting → step s = .next s)

/-- A waiting core takes the key the host presses: after a cycle that changes nothing, `press_key(k)` and one more
cycle, Vx holds k and PC has advanced (the example quoted in 45_keypad_timers.md at Fx0A; 92_eei_decisions.md D23,
log 13). -/
def Obligations.KeyPressEndsTheWait : Prop :=
  ∀ (x : RegIndex) (k : KeyIndex) (s : State), s.Waiting → fetchInstr s = .ok (.ldVxK x) →
    ∃ t, runMoves [.cycle, .host (.pressKey k), .cycle] s = .next t ∧ (t.reg x).toNat = k.val ∧ Advanced s t ∧
      SameRegsBut s t (· = x)

/-- The host reads ST: what it gets is the byte ST holds, the value `Fx18` wrote last less the ticks since; reading changes
nothing, and no host call but a tick and a new construction changes what is read (60_exceptions.md section 7 on the sound
timer; that the host has these two operations is the decision of 92_eei_decisions.md D13, log 4). -/
def Obligations.HostReadsTheSoundTimer : Prop :=
  ∀ s : State, hostCall .readSoundTimer s = .next s ∧ readSoundTimer s = s.st ∧
    (∀ x : RegIndex, ∃ t, exec (.ldStVx x) s = .next t ∧ readSoundTimer t = s.reg x) ∧
    (∃ t, hostCall .tickTimers s = .next t ∧ (readSoundTimer t).toNat = (readSoundTimer s).toNat - 1) ∧
    (∀ (c : HostCall) (t : State), c ≠ .construct → c ≠ .tickTimers → hostCall c s = .next t →
      readSoundTimer t = readSoundTimer s)
end

