-- ==== Sys2Proof/Laws/Decode.lean ====
section
/-! SUPPORT. Words and their fields as numbers: an encoded word as a sum of its fields, and a field of a word as a
quotient and remainder. With these the two round trips are case analyses closed by arithmetic. -/

namespace Sys2Proof

/-! ### Encoded words as numbers -/

/-- Appending bits is multiplying and adding. -/
theorem toNat_append_eq {m n : Nat} (x : BitVec m) (y : BitVec n) : (x ++ y).toNat = x.toNat * 2 ^ n + y.toNat := by
  rw [BitVec.toNat_append, ← Nat.shiftLeft_add_eq_or_of_lt y.isLt, Nat.shiftLeft_eq]

@[simp] theorem toNat_nibbleBits (x : Fin 16) : (nibbleBits x).toNat = x.val := by
  simp [nibbleBits]

theorem toNat_encodeAddr (op : BitVec 4) (nnn : Addr12) :
    (encodeAddr op nnn).toNat = op.toNat * 4096 + nnn.toNat :=
  toNat_append_eq op nnn

theorem toNat_encodeXkk (op : BitVec 4) (x : RegIndex) (kk : Byte) :
    (encodeXkk op x kk).toNat = op.toNat * 4096 + x.val * 256 + kk.toNat := by
  have h : (encodeXkk op x kk).toNat = (op ++ nibbleBits x).toNat * 256 + kk.toNat :=
    toNat_append_eq (op ++ nibbleBits x) kk
  rw [h, toNat_append_eq, toNat_nibbleBits]
  omega

theorem toNat_encodeXyn (op : BitVec 4) (x y n : Fin 16) :
    (encodeXyn op x y n).toNat = op.toNat * 4096 + x.val * 256 + y.val * 16 + n.val := by
  have h : (encodeXyn op x y n).toNat = (op ++ nibbleBits x ++ nibbleBits y).toNat * 16 + (nibbleBits n).toNat :=
    toNat_append_eq (op ++ nibbleBits x ++ nibbleBits y) (nibbleBits n)
  rw [h, toNat_append_eq, toNat_append_eq]
  simp only [toNat_nibbleBits]
  omega

/-! ### Fields as numbers -/

theorem val_nibble (w : Word) (lo : Nat) : (nibble w lo).val = w.toNat / 2 ^ lo % 16 := by
  simp [nibble, BitVec.extractLsb'_toNat, Nat.shiftRight_eq_div_pow]

theorem val_opField (w : Word) : (opField w).val = w.toNat / 4096 := by
  have := w.isLt
  rw [opField, val_nibble]
  omega

theorem val_xField (w : Word) : (xField w).val = w.toNat / 256 % 16 := val_nibble w 8

theorem val_yField (w : Word) : (yField w).val = w.toNat / 16 % 16 := val_nibble w 4

theorem val_nField (w : Word) : (nField w).val = w.toNat % 16 := by
  rw [nField, val_nibble, Nat.pow_zero, Nat.div_one]

theorem toNat_kkField (w : Word) : (kkField w).toNat = w.toNat % 256 := by
  simp [kkField, BitVec.extractLsb'_toNat]

theorem toNat_nnnField (w : Word) : (nnnField w).toNat = w.toNat % 4096 := by
  simp [nnnField, BitVec.extractLsb'_toNat]

/-! ### Fields of encoded words -/

theorem opField_encodeAddr (op : BitVec 4) (nnn : Addr12) : (opField (encodeAddr op nnn)).val = op.toNat := by
  rw [val_opField, toNat_encodeAddr]; omega

theorem nnnField_encodeAddr (op : BitVec 4) (nnn : Addr12) : nnnField (encodeAddr op nnn) = nnn := by
  apply BitVec.eq_of_toNat_eq
  rw [toNat_nnnField, toNat_encodeAddr]; omega

theorem opField_encodeXkk (op : BitVec 4) (x : RegIndex) (kk : Byte) :
    (opField (encodeXkk op x kk)).val = op.toNat := by
  rw [val_opField, toNat_encodeXkk]; omega

theorem xField_encodeXkk (op : BitVec 4) (x : RegIndex) (kk : Byte) : xField (encodeXkk op x kk) = x := by
  apply Fin.ext
  rw [val_xField, toNat_encodeXkk]; omega

theorem kkField_encodeXkk (op : BitVec 4) (x : RegIndex) (kk : Byte) : kkField (encodeXkk op x kk) = kk := by
  apply BitVec.eq_of_toNat_eq
  rw [toNat_kkField, toNat_encodeXkk]; omega

theorem opField_encodeXyn (op : BitVec 4) (x y n : Fin 16) : (opField (encodeXyn op x y n)).val = op.toNat := by
  rw [val_opField, toNat_encodeXyn]; omega

theorem xField_encodeXyn (op : BitVec 4) (x y n : Fin 16) : xField (encodeXyn op x y n) = x := by
  apply Fin.ext
  rw [val_xField, toNat_encodeXyn]; omega

theorem yField_encodeXyn (op : BitVec 4) (x y n : Fin 16) : yField (encodeXyn op x y n) = y := by
  apply Fin.ext
  rw [val_yField, toNat_encodeXyn]; omega

theorem nField_encodeXyn (op : BitVec 4) (x y n : Fin 16) : nField (encodeXyn op x y n) = n := by
  apply Fin.ext
  rw [val_nField, toNat_encodeXyn]; omega

/-! ### Words of bytes -/

theorem toNat_wordOfBytes (hi lo : Byte) : (wordOfBytes hi lo).toNat = hi.toNat * 256 + lo.toNat :=
  toNat_append_eq hi lo

/-- The two bytes of a word, high byte first, are the word again (20_memory.md R64). -/
theorem wordOfBytes_bytesOfWord (w : Word) : wordOfBytes (w.extractLsb' 8 8) (w.extractLsb' 0 8) = w := by
  have := w.isLt
  apply BitVec.eq_of_toNat_eq
  rw [toNat_wordOfBytes]
  simp only [BitVec.extractLsb'_toNat, Nat.shiftRight_eq_div_pow]
  omega

theorem length_tableBytes (nbits w : Nat) : (tableBytes nbits w).length = 2 := rfl

end Sys2Proof
end

