-- ==== Sys2Proof/Laws/Memory.lean ====
section
/-! SUPPORT. The laws of memory: a read after a write, that a write leaves every other byte alone, and that every memory
operation keeps the canonical form. -/

namespace Sys2Proof.Machine

@[simp] theorem Memory.byte_nil (a : Nat) : Memory.byte [] a = Memory.unlisted a := rfl

theorem Memory.byte_cons_same (m : Memory) (a : Nat) (w : Byte) : Memory.byte ((a, w) :: m) a = w := by
  simp [Memory.byte]

theorem Memory.byte_cons_ne (m : Memory) {a b : Nat} (w : Byte) (h : a ≠ b) :
    Memory.byte ((b, w) :: m) a = Memory.byte m a := by
  simp [Memory.byte, h]

/-- A canonical memory from `lo` up lists nothing below `lo`. -/
theorem Memory.byte_of_lt {m : Memory} {lo a : Nat} (h : Memory.wfFrom lo m = true) (ha : a < lo) :
    Memory.byte m a = Memory.unlisted a := by
  induction m generalizing lo with
  | nil => rfl
  | cons c m ih =>
    obtain ⟨b, w⟩ := c
    simp only [Memory.wfFrom, Bool.and_eq_true, decide_eq_true_eq] at h
    rw [Memory.byte_cons_ne m w (by omega)]
    exact ih h.2 (by omega)

theorem Memory.wfFrom_mono {m : Memory} {lo lo' : Nat} (h : Memory.wfFrom lo m = true) (hl : lo' ≤ lo) :
    Memory.wfFrom lo' m = true := by
  cases m with
  | nil => rfl
  | cons c m =>
    obtain ⟨b, w⟩ := c
    simp only [Memory.wfFrom, Bool.and_eq_true, decide_eq_true_eq] at h ⊢
    exact ⟨⟨⟨by omega, h.1.1.2⟩, h.1.2⟩, h.2⟩

/-! ### `Memory.cons`, the canonical cons -/

theorem Memory.byte_put_same {m : Memory} {a : Nat} (h : Memory.wfFrom (a + 1) m = true) (v : Byte) :
    Memory.byte (Memory.cons a v m) a = v := by
  unfold Memory.cons
  split
  · next hv => rw [Memory.byte_of_lt h (by omega), hv]
  · exact Memory.byte_cons_same m a v

theorem Memory.byte_put_ne (m : Memory) {a c : Nat} (v : Byte) (h : c ≠ a) :
    Memory.byte (Memory.cons a v m) c = Memory.byte m c := by
  unfold Memory.cons
  split
  · rfl
  · exact Memory.byte_cons_ne m v h

theorem Memory.cons_wf {m : Memory} {lo a : Nat} (hlo : lo ≤ a) (ha : a < 4096)
    (h : Memory.wfFrom (a + 1) m = true) (v : Byte) : Memory.wfFrom lo (Memory.cons a v m) = true := by
  unfold Memory.cons
  split
  · exact Memory.wfFrom_mono h (by omega)
  · next hv => simp [Memory.wfFrom, hlo, ha, hv, h]

/-! ### `Memory.setByte` -/

/-- A write leaves every other address alone (20_memory.md R67). -/
theorem Memory.byte_setByte_ne (m : Memory) {a c : Nat} (v : Byte) (h : c ≠ a) :
    Memory.byte (Memory.setByte m a v) c = Memory.byte m c := by
  induction m with
  | nil => exact Memory.byte_put_ne [] v h
  | cons d m ih =>
    obtain ⟨b, w⟩ := d
    unfold Memory.setByte
    split
    · exact Memory.byte_put_ne _ v h
    · split
      · next hab => rw [Memory.byte_put_ne m v h, Memory.byte_cons_ne m w (by omega)]
      · by_cases hc : c = b
        · subst hc; rw [Memory.byte_cons_same, Memory.byte_cons_same]
        · rw [Memory.byte_cons_ne _ _ hc, Memory.byte_cons_ne _ _ hc, ih]

/-- A read after a write to the same address gives the value written (20_memory.md R71). -/
theorem Memory.byte_setByte_same {m : Memory} {lo : Nat} (h : Memory.wfFrom lo m = true) (a : Nat) (v : Byte) :
    Memory.byte (Memory.setByte m a v) a = v := by
  induction m generalizing lo with
  | nil => exact Memory.byte_put_same rfl v
  | cons d m ih =>
    obtain ⟨b, w⟩ := d
    have h' := h
    simp only [Memory.wfFrom, Bool.and_eq_true, decide_eq_true_eq] at h
    unfold Memory.setByte
    split
    · next hab =>
      refine Memory.byte_put_same ?_ v
      simp only [Memory.wfFrom, Bool.and_eq_true, decide_eq_true_eq]
      exact ⟨⟨⟨by omega, h.1.1.2⟩, h.1.2⟩, h.2⟩
    · split
      · next hab => subst hab; exact Memory.byte_put_same h.2 v
      · next hab => rw [Memory.byte_cons_ne _ _ hab]; exact ih h.2

theorem Memory.setByte_wfFrom {m : Memory} {lo : Nat} (h : Memory.wfFrom lo m = true) {a : Nat} (hlo : lo ≤ a)
    (ha : a < 4096) (v : Byte) : Memory.wfFrom lo (Memory.setByte m a v) = true := by
  induction m generalizing lo with
  | nil => exact Memory.cons_wf hlo ha rfl v
  | cons d m ih =>
    obtain ⟨b, w⟩ := d
    simp only [Memory.wfFrom, Bool.and_eq_true, decide_eq_true_eq] at h
    unfold Memory.setByte
    split
    · next hab =>
      refine Memory.cons_wf hlo ha ?_ v
      simp only [Memory.wfFrom, Bool.and_eq_true, decide_eq_true_eq]
      exact ⟨⟨⟨by omega, h.1.1.2⟩, h.1.2⟩, h.2⟩
    · split
      · next hab => subst hab; exact Memory.cons_wf hlo ha h.2 v
      · next hlt hab =>
        simp only [Memory.wfFrom, Bool.and_eq_true, decide_eq_true_eq]
        exact ⟨h.1, ih h.2 (by omega)⟩

/-- A write below 4096 keeps the canonical form. -/
theorem Memory.setByte_wf {m : Memory} (h : Memory.wf m = true) {a : Nat} (ha : a < 4096) (v : Byte) :
    Memory.wf (Memory.setByte m a v) = true :=
  Memory.setByte_wfFrom h (by omega) ha v

/-! ### `Memory.setBytes` -/

theorem Memory.setBytes_wf {m : Memory} (h : Memory.wf m = true) (bs : List Byte) {a : Nat}
    (ha : a + bs.length ≤ 4096) : Memory.wf (Memory.setBytes m a bs) = true := by
  induction bs generalizing m a with
  | nil => exact h
  | cons b bs ih =>
    simp only [List.length_cons] at ha
    exact ih (Memory.setByte_wf h (by omega) b) (by omega)

/-- Writing bytes leaves every address outside them alone. -/
theorem Memory.byte_setBytes_outside (m : Memory) (bs : List Byte) {a c : Nat} (h : c < a ∨ a + bs.length ≤ c) :
    Memory.byte (Memory.setBytes m a bs) c = Memory.byte m c := by
  induction bs generalizing m a with
  | nil => rfl
  | cons b bs ih =>
    simp only [List.length_cons] at h
    rw [Memory.setBytes, ih _ (by omega), Memory.byte_setByte_ne _ _ (by omega)]

/-- Writing bytes puts the j-th at `a + j`. -/
theorem Memory.byte_setBytes_inside {m : Memory} (h : Memory.wf m = true) (bs : List Byte) {a j : Nat}
    (hb : a + bs.length ≤ 4096) (hj : j < bs.length) : Memory.byte (Memory.setBytes m a bs) (a + j) = bs[j] := by
  induction bs generalizing m a j with
  | nil => simp at hj
  | cons b bs ih =>
    simp only [List.length_cons] at hb hj
    cases j with
    | zero =>
      rw [Memory.setBytes, Nat.add_zero, Memory.byte_setBytes_outside _ _ (by omega)]
      exact Memory.byte_setByte_same h a b
    | succ j =>
      have := ih (Memory.setByte_wf h (show a < 4096 by omega) b) (a := a + 1) (j := j) (by omega) (by omega)
      rw [Memory.setBytes, show a + (j + 1) = a + 1 + j by omega, this, List.getElem_cons_succ]

/-! ### `Memory.tabulate` -/

theorem Memory.tabulate_wfFrom (f : Nat → Byte) (n a : Nat) (h : a + n ≤ 4096) :
    Memory.wfFrom a (Memory.tabulate f a n) = true := by
  induction n generalizing a with
  | zero => rfl
  | succ n ih => exact Memory.cons_wf (Nat.le_refl a) (by omega) (ih (a + 1) (by omega)) (f a)

theorem Memory.tabulate_wf (f : Nat → Byte) : Memory.wf (Memory.tabulate f 0 4096) = true :=
  Memory.tabulate_wfFrom f 4096 0 (Nat.le_refl 4096)

/-- A tabulated memory reads as its function: every byte after a fatal error is a free value of its own. -/
theorem Memory.byte_tabulate (f : Nat → Byte) (n a c : Nat) (h : a + n ≤ 4096) (hc : a ≤ c ∧ c < a + n) :
    Memory.byte (Memory.tabulate f a n) c = f c := by
  induction n generalizing a with
  | zero => omega
  | succ n ih =>
    by_cases hac : c = a
    · subst hac
      exact Memory.byte_put_same (Memory.tabulate_wfFrom f n (c + 1) (by omega)) (f c)
    · rw [Memory.tabulate, Memory.byte_put_ne _ _ hac]
      exact ih (a + 1) (by omega) (by omega)

/-! ### Equal memories are equal lists -/

theorem Memory.ext_wfFrom {m n : Memory} {lo : Nat} (hm : Memory.wfFrom lo m = true) (hn : Memory.wfFrom lo n = true)
    (h : ∀ a, Memory.byte m a = Memory.byte n a) : m = n := by
  induction m generalizing n lo with
  | nil =>
    cases n with
    | nil => rfl
    | cons d n =>
      obtain ⟨b, w⟩ := d
      simp only [Memory.wfFrom, Bool.and_eq_true, decide_eq_true_eq, bne_iff_ne] at hn
      have hb := h b
      rw [Memory.byte_cons_same] at hb
      exact absurd hb.symm hn.1.2
  | cons d m ih =>
    obtain ⟨b, w⟩ := d
    have hm' := hm
    simp only [Memory.wfFrom, Bool.and_eq_true, decide_eq_true_eq, bne_iff_ne] at hm
    cases n with
    | nil =>
      have hb := h b
      rw [Memory.byte_cons_same] at hb
      exact absurd hb hm.1.2
    | cons d' n =>
      obtain ⟨b', w'⟩ := d'
      have hn' := hn
      simp only [Memory.wfFrom, Bool.and_eq_true, decide_eq_true_eq, bne_iff_ne] at hn
      have hb : b = b' := by
        rcases Nat.lt_trichotomy b b' with hlt | heq | hgt
        · have := h b
          rw [Memory.byte_cons_same, Memory.byte_cons_ne n w' (by omega), Memory.byte_of_lt hn.2 (by omega)] at this
          exact absurd this hm.1.2
        · exact heq
        · have := h b'
          rw [Memory.byte_cons_same, Memory.byte_cons_ne m w (by omega), Memory.byte_of_lt hm.2 (by omega)] at this
          exact absurd this.symm hn.1.2
      subst hb
      have hw : w = w' := by simpa [Memory.byte_cons_same] using h b
      subst hw
      have : m = n := by
        refine ih hm.2 hn.2 fun a => ?_
        by_cases hab : a = b
        · subst hab; rw [Memory.byte_of_lt hm.2 (by omega), Memory.byte_of_lt hn.2 (by omega)]
        · have := h a
          rwa [Memory.byte_cons_ne m w hab, Memory.byte_cons_ne n w hab] at this
      rw [this]

/-- Canonical memories that read the same everywhere are the same list. -/
theorem Memory.ext_wf {m n : Memory} (hm : Memory.wf m = true) (hn : Memory.wf n = true)
    (h : ∀ a, Memory.byte m a = Memory.byte n a) : m = n :=
  Memory.ext_wfFrom hm hn h

end Sys2Proof.Machine
end

