-- ==== Sys2Proof/Laws/State.lean ====
section
/-! SUPPORT. One lemma per field per update of the state, true by rfl; the register file read after its updates; the
state a fatal error leaves; the state after reset. -/

namespace Sys2Proof.Machine

variable (s : State)

/-! ### `State.setMem` -/

@[simp] theorem State.setMem_mem (m : Memory) : (s.setMem m).mem = m := rfl
@[simp] theorem State.setMem_v (m : Memory) : (s.setMem m).v = s.v := rfl
@[simp] theorem State.setMem_i (m : Memory) : (s.setMem m).i = s.i := rfl
@[simp] theorem State.setMem_pc (m : Memory) : (s.setMem m).pc = s.pc := rfl
@[simp] theorem State.setMem_sp (m : Memory) : (s.setMem m).sp = s.sp := rfl
@[simp] theorem State.setMem_stack (m : Memory) : (s.setMem m).stack = s.stack := rfl
@[simp] theorem State.setMem_dt (m : Memory) : (s.setMem m).dt = s.dt := rfl
@[simp] theorem State.setMem_st (m : Memory) : (s.setMem m).st = s.st := rfl
@[simp] theorem State.setMem_fb (m : Memory) : (s.setMem m).fb = s.fb := rfl
@[simp] theorem State.setMem_key (m : Memory) : (s.setMem m).key = s.key := rfl
@[simp] theorem State.setMem_halt (m : Memory) : (s.setMem m).halt = s.halt := rfl
@[simp] theorem State.setMem_draws (m : Memory) : (s.setMem m).draws = s.draws := rfl
@[simp] theorem State.setMem_reg (m : Memory) (r : RegIndex) : (s.setMem m).reg r = s.reg r := rfl

/-! ### `State.setReg` -/

@[simp] theorem State.setReg_mem (x : RegIndex) (b : Byte) : (s.setReg x b).mem = s.mem := rfl
@[simp] theorem State.setReg_v (x : RegIndex) (b : Byte) : (s.setReg x b).v = s.v.set x b := rfl
@[simp] theorem State.setReg_i (x : RegIndex) (b : Byte) : (s.setReg x b).i = s.i := rfl
@[simp] theorem State.setReg_pc (x : RegIndex) (b : Byte) : (s.setReg x b).pc = s.pc := rfl
@[simp] theorem State.setReg_sp (x : RegIndex) (b : Byte) : (s.setReg x b).sp = s.sp := rfl
@[simp] theorem State.setReg_stack (x : RegIndex) (b : Byte) : (s.setReg x b).stack = s.stack := rfl
@[simp] theorem State.setReg_dt (x : RegIndex) (b : Byte) : (s.setReg x b).dt = s.dt := rfl
@[simp] theorem State.setReg_st (x : RegIndex) (b : Byte) : (s.setReg x b).st = s.st := rfl
@[simp] theorem State.setReg_fb (x : RegIndex) (b : Byte) : (s.setReg x b).fb = s.fb := rfl
@[simp] theorem State.setReg_key (x : RegIndex) (b : Byte) : (s.setReg x b).key = s.key := rfl
@[simp] theorem State.setReg_halt (x : RegIndex) (b : Byte) : (s.setReg x b).halt = s.halt := rfl
@[simp] theorem State.setReg_draws (x : RegIndex) (b : Byte) : (s.setReg x b).draws = s.draws := rfl

/-! ### `State.setRegFlag` -/

@[simp] theorem State.setRegFlag_mem (x : RegIndex) (b f : Byte) : (s.setRegFlag x b f).mem = s.mem := rfl
@[simp] theorem State.setRegFlag_v (x : RegIndex) (b f : Byte) : (s.setRegFlag x b f).v = (s.v.set x b).set flagReg f := rfl
@[simp] theorem State.setRegFlag_i (x : RegIndex) (b f : Byte) : (s.setRegFlag x b f).i = s.i := rfl
@[simp] theorem State.setRegFlag_pc (x : RegIndex) (b f : Byte) : (s.setRegFlag x b f).pc = s.pc := rfl
@[simp] theorem State.setRegFlag_sp (x : RegIndex) (b f : Byte) : (s.setRegFlag x b f).sp = s.sp := rfl
@[simp] theorem State.setRegFlag_stack (x : RegIndex) (b f : Byte) : (s.setRegFlag x b f).stack = s.stack := rfl
@[simp] theorem State.setRegFlag_dt (x : RegIndex) (b f : Byte) : (s.setRegFlag x b f).dt = s.dt := rfl
@[simp] theorem State.setRegFlag_st (x : RegIndex) (b f : Byte) : (s.setRegFlag x b f).st = s.st := rfl
@[simp] theorem State.setRegFlag_fb (x : RegIndex) (b f : Byte) : (s.setRegFlag x b f).fb = s.fb := rfl
@[simp] theorem State.setRegFlag_key (x : RegIndex) (b f : Byte) : (s.setRegFlag x b f).key = s.key := rfl
@[simp] theorem State.setRegFlag_halt (x : RegIndex) (b f : Byte) : (s.setRegFlag x b f).halt = s.halt := rfl
@[simp] theorem State.setRegFlag_draws (x : RegIndex) (b f : Byte) : (s.setRegFlag x b f).draws = s.draws := rfl

/-! ### `State.setRegs` -/

@[simp] theorem State.setRegs_mem (bs : List Byte) : (s.setRegs bs).mem = s.mem := rfl
@[simp] theorem State.setRegs_v (bs : List Byte) : (s.setRegs bs).v = Vector.ofFn fun j : RegIndex => bs.getD j (s.reg j) := rfl
@[simp] theorem State.setRegs_i (bs : List Byte) : (s.setRegs bs).i = s.i := rfl
@[simp] theorem State.setRegs_pc (bs : List Byte) : (s.setRegs bs).pc = s.pc := rfl
@[simp] theorem State.setRegs_sp (bs : List Byte) : (s.setRegs bs).sp = s.sp := rfl
@[simp] theorem State.setRegs_stack (bs : List Byte) : (s.setRegs bs).stack = s.stack := rfl
@[simp] theorem State.setRegs_dt (bs : List Byte) : (s.setRegs bs).dt = s.dt := rfl
@[simp] theorem State.setRegs_st (bs : List Byte) : (s.setRegs bs).st = s.st := rfl
@[simp] theorem State.setRegs_fb (bs : List Byte) : (s.setRegs bs).fb = s.fb := rfl
@[simp] theorem State.setRegs_key (bs : List Byte) : (s.setRegs bs).key = s.key := rfl
@[simp] theorem State.setRegs_halt (bs : List Byte) : (s.setRegs bs).halt = s.halt := rfl
@[simp] theorem State.setRegs_draws (bs : List Byte) : (s.setRegs bs).draws = s.draws := rfl

/-! ### `State.setI` -/

@[simp] theorem State.setI_mem (w : Word) : (s.setI w).mem = s.mem := rfl
@[simp] theorem State.setI_v (w : Word) : (s.setI w).v = s.v := rfl
@[simp] theorem State.setI_i (w : Word) : (s.setI w).i = w := rfl
@[simp] theorem State.setI_pc (w : Word) : (s.setI w).pc = s.pc := rfl
@[simp] theorem State.setI_sp (w : Word) : (s.setI w).sp = s.sp := rfl
@[simp] theorem State.setI_stack (w : Word) : (s.setI w).stack = s.stack := rfl
@[simp] theorem State.setI_dt (w : Word) : (s.setI w).dt = s.dt := rfl
@[simp] theorem State.setI_st (w : Word) : (s.setI w).st = s.st := rfl
@[simp] theorem State.setI_fb (w : Word) : (s.setI w).fb = s.fb := rfl
@[simp] theorem State.setI_key (w : Word) : (s.setI w).key = s.key := rfl
@[simp] theorem State.setI_halt (w : Word) : (s.setI w).halt = s.halt := rfl
@[simp] theorem State.setI_draws (w : Word) : (s.setI w).draws = s.draws := rfl
@[simp] theorem State.setI_reg (w : Word) (r : RegIndex) : (s.setI w).reg r = s.reg r := rfl

/-! ### `State.setPc` -/

@[simp] theorem State.setPc_mem (w : Word) : (s.setPc w).mem = s.mem := rfl
@[simp] theorem State.setPc_v (w : Word) : (s.setPc w).v = s.v := rfl
@[simp] theorem State.setPc_i (w : Word) : (s.setPc w).i = s.i := rfl
@[simp] theorem State.setPc_pc (w : Word) : (s.setPc w).pc = w := rfl
@[simp] theorem State.setPc_sp (w : Word) : (s.setPc w).sp = s.sp := rfl
@[simp] theorem State.setPc_stack (w : Word) : (s.setPc w).stack = s.stack := rfl
@[simp] theorem State.setPc_dt (w : Word) : (s.setPc w).dt = s.dt := rfl
@[simp] theorem State.setPc_st (w : Word) : (s.setPc w).st = s.st := rfl
@[simp] theorem State.setPc_fb (w : Word) : (s.setPc w).fb = s.fb := rfl
@[simp] theorem State.setPc_key (w : Word) : (s.setPc w).key = s.key := rfl
@[simp] theorem State.setPc_halt (w : Word) : (s.setPc w).halt = s.halt := rfl
@[simp] theorem State.setPc_draws (w : Word) : (s.setPc w).draws = s.draws := rfl
@[simp] theorem State.setPc_reg (w : Word) (r : RegIndex) : (s.setPc w).reg r = s.reg r := rfl

/-! ### `State.setDt` -/

@[simp] theorem State.setDt_mem (b : Byte) : (s.setDt b).mem = s.mem := rfl
@[simp] theorem State.setDt_v (b : Byte) : (s.setDt b).v = s.v := rfl
@[simp] theorem State.setDt_i (b : Byte) : (s.setDt b).i = s.i := rfl
@[simp] theorem State.setDt_pc (b : Byte) : (s.setDt b).pc = s.pc := rfl
@[simp] theorem State.setDt_sp (b : Byte) : (s.setDt b).sp = s.sp := rfl
@[simp] theorem State.setDt_stack (b : Byte) : (s.setDt b).stack = s.stack := rfl
@[simp] theorem State.setDt_dt (b : Byte) : (s.setDt b).dt = b := rfl
@[simp] theorem State.setDt_st (b : Byte) : (s.setDt b).st = s.st := rfl
@[simp] theorem State.setDt_fb (b : Byte) : (s.setDt b).fb = s.fb := rfl
@[simp] theorem State.setDt_key (b : Byte) : (s.setDt b).key = s.key := rfl
@[simp] theorem State.setDt_halt (b : Byte) : (s.setDt b).halt = s.halt := rfl
@[simp] theorem State.setDt_draws (b : Byte) : (s.setDt b).draws = s.draws := rfl
@[simp] theorem State.setDt_reg (b : Byte) (r : RegIndex) : (s.setDt b).reg r = s.reg r := rfl

/-! ### `State.setSt` -/

@[simp] theorem State.setSt_mem (b : Byte) : (s.setSt b).mem = s.mem := rfl
@[simp] theorem State.setSt_v (b : Byte) : (s.setSt b).v = s.v := rfl
@[simp] theorem State.setSt_i (b : Byte) : (s.setSt b).i = s.i := rfl
@[simp] theorem State.setSt_pc (b : Byte) : (s.setSt b).pc = s.pc := rfl
@[simp] theorem State.setSt_sp (b : Byte) : (s.setSt b).sp = s.sp := rfl
@[simp] theorem State.setSt_stack (b : Byte) : (s.setSt b).stack = s.stack := rfl
@[simp] theorem State.setSt_dt (b : Byte) : (s.setSt b).dt = s.dt := rfl
@[simp] theorem State.setSt_st (b : Byte) : (s.setSt b).st = b := rfl
@[simp] theorem State.setSt_fb (b : Byte) : (s.setSt b).fb = s.fb := rfl
@[simp] theorem State.setSt_key (b : Byte) : (s.setSt b).key = s.key := rfl
@[simp] theorem State.setSt_halt (b : Byte) : (s.setSt b).halt = s.halt := rfl
@[simp] theorem State.setSt_draws (b : Byte) : (s.setSt b).draws = s.draws := rfl
@[simp] theorem State.setSt_reg (b : Byte) (r : RegIndex) : (s.setSt b).reg r = s.reg r := rfl

/-! ### `State.setFb` -/

@[simp] theorem State.setFb_mem (f : Framebuffer) : (s.setFb f).mem = s.mem := rfl
@[simp] theorem State.setFb_v (f : Framebuffer) : (s.setFb f).v = s.v := rfl
@[simp] theorem State.setFb_i (f : Framebuffer) : (s.setFb f).i = s.i := rfl
@[simp] theorem State.setFb_pc (f : Framebuffer) : (s.setFb f).pc = s.pc := rfl
@[simp] theorem State.setFb_sp (f : Framebuffer) : (s.setFb f).sp = s.sp := rfl
@[simp] theorem State.setFb_stack (f : Framebuffer) : (s.setFb f).stack = s.stack := rfl
@[simp] theorem State.setFb_dt (f : Framebuffer) : (s.setFb f).dt = s.dt := rfl
@[simp] theorem State.setFb_st (f : Framebuffer) : (s.setFb f).st = s.st := rfl
@[simp] theorem State.setFb_fb (f : Framebuffer) : (s.setFb f).fb = f := rfl
@[simp] theorem State.setFb_key (f : Framebuffer) : (s.setFb f).key = s.key := rfl
@[simp] theorem State.setFb_halt (f : Framebuffer) : (s.setFb f).halt = s.halt := rfl
@[simp] theorem State.setFb_draws (f : Framebuffer) : (s.setFb f).draws = s.draws := rfl
@[simp] theorem State.setFb_reg (f : Framebuffer) (r : RegIndex) : (s.setFb f).reg r = s.reg r := rfl

/-! ### `State.setKey` -/

@[simp] theorem State.setKey_mem (k : KeyIndex) (b : Byte) : (s.setKey k b).mem = s.mem := rfl
@[simp] theorem State.setKey_v (k : KeyIndex) (b : Byte) : (s.setKey k b).v = s.v := rfl
@[simp] theorem State.setKey_i (k : KeyIndex) (b : Byte) : (s.setKey k b).i = s.i := rfl
@[simp] theorem State.setKey_pc (k : KeyIndex) (b : Byte) : (s.setKey k b).pc = s.pc := rfl
@[simp] theorem State.setKey_sp (k : KeyIndex) (b : Byte) : (s.setKey k b).sp = s.sp := rfl
@[simp] theorem State.setKey_stack (k : KeyIndex) (b : Byte) : (s.setKey k b).stack = s.stack := rfl
@[simp] theorem State.setKey_dt (k : KeyIndex) (b : Byte) : (s.setKey k b).dt = s.dt := rfl
@[simp] theorem State.setKey_st (k : KeyIndex) (b : Byte) : (s.setKey k b).st = s.st := rfl
@[simp] theorem State.setKey_fb (k : KeyIndex) (b : Byte) : (s.setKey k b).fb = s.fb := rfl
@[simp] theorem State.setKey_key (k : KeyIndex) (b : Byte) : (s.setKey k b).key = s.key.set k b := rfl
@[simp] theorem State.setKey_halt (k : KeyIndex) (b : Byte) : (s.setKey k b).halt = s.halt := rfl
@[simp] theorem State.setKey_draws (k : KeyIndex) (b : Byte) : (s.setKey k b).draws = s.draws := rfl
@[simp] theorem State.setKey_reg (k : KeyIndex) (b : Byte) (r : RegIndex) : (s.setKey k b).reg r = s.reg r := rfl

/-! ### `State.countDraw` -/

@[simp] theorem State.countDraw_mem : (s.countDraw).mem = s.mem := rfl
@[simp] theorem State.countDraw_v : (s.countDraw).v = s.v := rfl
@[simp] theorem State.countDraw_i : (s.countDraw).i = s.i := rfl
@[simp] theorem State.countDraw_pc : (s.countDraw).pc = s.pc := rfl
@[simp] theorem State.countDraw_sp : (s.countDraw).sp = s.sp := rfl
@[simp] theorem State.countDraw_stack : (s.countDraw).stack = s.stack := rfl
@[simp] theorem State.countDraw_dt : (s.countDraw).dt = s.dt := rfl
@[simp] theorem State.countDraw_st : (s.countDraw).st = s.st := rfl
@[simp] theorem State.countDraw_fb : (s.countDraw).fb = s.fb := rfl
@[simp] theorem State.countDraw_key : (s.countDraw).key = s.key := rfl
@[simp] theorem State.countDraw_halt : (s.countDraw).halt = s.halt := rfl
@[simp] theorem State.countDraw_draws : (s.countDraw).draws = s.draws + 1 := rfl
@[simp] theorem State.countDraw_reg (r : RegIndex) : (s.countDraw).reg r = s.reg r := rfl

/-! ### `State.advance` -/

@[simp] theorem State.advance_mem : (s.advance).mem = s.mem := rfl
@[simp] theorem State.advance_v : (s.advance).v = s.v := rfl
@[simp] theorem State.advance_i : (s.advance).i = s.i := rfl
@[simp] theorem State.advance_pc : (s.advance).pc = s.pc + 2 := rfl
@[simp] theorem State.advance_sp : (s.advance).sp = s.sp := rfl
@[simp] theorem State.advance_stack : (s.advance).stack = s.stack := rfl
@[simp] theorem State.advance_dt : (s.advance).dt = s.dt := rfl
@[simp] theorem State.advance_st : (s.advance).st = s.st := rfl
@[simp] theorem State.advance_fb : (s.advance).fb = s.fb := rfl
@[simp] theorem State.advance_key : (s.advance).key = s.key := rfl
@[simp] theorem State.advance_halt : (s.advance).halt = s.halt := rfl
@[simp] theorem State.advance_draws : (s.advance).draws = s.draws := rfl
@[simp] theorem State.advance_reg (r : RegIndex) : (s.advance).reg r = s.reg r := rfl

/-! ### `State.skipIf`: only PC changes -/

@[simp] theorem State.skipIf_mem (c : Bool) : (s.skipIf c).mem = s.mem := by cases c <;> rfl
@[simp] theorem State.skipIf_v (c : Bool) : (s.skipIf c).v = s.v := by cases c <;> rfl
@[simp] theorem State.skipIf_i (c : Bool) : (s.skipIf c).i = s.i := by cases c <;> rfl
@[simp] theorem State.skipIf_sp (c : Bool) : (s.skipIf c).sp = s.sp := by cases c <;> rfl
@[simp] theorem State.skipIf_stack (c : Bool) : (s.skipIf c).stack = s.stack := by cases c <;> rfl
@[simp] theorem State.skipIf_dt (c : Bool) : (s.skipIf c).dt = s.dt := by cases c <;> rfl
@[simp] theorem State.skipIf_st (c : Bool) : (s.skipIf c).st = s.st := by cases c <;> rfl
@[simp] theorem State.skipIf_fb (c : Bool) : (s.skipIf c).fb = s.fb := by cases c <;> rfl
@[simp] theorem State.skipIf_key (c : Bool) : (s.skipIf c).key = s.key := by cases c <;> rfl
@[simp] theorem State.skipIf_halt (c : Bool) : (s.skipIf c).halt = s.halt := by cases c <;> rfl
@[simp] theorem State.skipIf_draws (c : Bool) : (s.skipIf c).draws = s.draws := by cases c <;> rfl

@[simp] theorem State.skipIf_pc (c : Bool) : (s.skipIf c).pc = if c then s.pc + 4 else s.pc + 2 := by cases c <;> rfl

@[simp] theorem State.adv_eq : s.adv = s.pc + 2 := rfl

@[simp] theorem State.skip_eq : s.skip = s.pc + 4 := rfl

/-! ### Registers -/

theorem State.reg_eq (r : RegIndex) : s.reg r = s.v[r] := rfl

@[simp] theorem State.reg_setReg_same (x : RegIndex) (b : Byte) : (s.setReg x b).reg x = b := by
  simp [State.reg, State.setReg]

theorem State.reg_setReg_ne {x r : RegIndex} (h : r ≠ x) (b : Byte) : (s.setReg x b).reg r = s.reg r := by
  have hv : x.val ≠ r.val := fun e => h (Fin.ext e.symm)
  simp [State.reg, State.setReg, Vector.getElem_set_ne, hv]

/-- With a flag, VF ends with the flag whatever the destination is (40_cycle.md R127). -/
@[simp] theorem State.reg_setRegFlag_flag (x : RegIndex) (b f : Byte) : (s.setRegFlag x b f).reg flagReg = f := by
  simp [State.setRegFlag]

/-- The same, with VF written as its number. -/
@[simp] theorem State.reg_setRegFlag_F (x : RegIndex) (b f : Byte) : (s.setRegFlag x b f).reg 0xF = f :=
  State.reg_setRegFlag_flag s x b f

theorem State.reg_setRegFlag_same {x : RegIndex} (h : x ≠ flagReg) (b f : Byte) :
    (s.setRegFlag x b f).reg x = b := by
  simp [State.setRegFlag, State.reg_setReg_ne, h]

theorem State.reg_setRegFlag_ne {x r : RegIndex} (h : r ≠ x) (hf : r ≠ flagReg) (b f : Byte) :
    (s.setRegFlag x b f).reg r = s.reg r := by
  simp [State.setRegFlag, State.reg_setReg_ne, h, hf]

@[simp] theorem State.reg_setRegs (bs : List Byte) (r : RegIndex) : (s.setRegs bs).reg r = bs.getD r (s.reg r) := by
  simp [State.reg, State.setRegs]

/-! ### The state a fatal error leaves -/

@[simp] theorem takeFatal_halt (e : Fault) : (takeFatal e s).halt = .halted e := rfl

@[simp] theorem takeFatal_draws (e : Fault) : (takeFatal e s).draws = s.draws + 1 := rfl

theorem takeFatal_mem (e : Fault) :
    (takeFatal e s).mem = Memory.tabulate (Config.afterFatalByte s.draws) 0 4096 := rfl

/-! ### The state after reset -/

@[simp] theorem State.reset_mem : State.reset.mem = [] := rfl
@[simp] theorem State.reset_i : State.reset.i = 0 := rfl
@[simp] theorem State.reset_pc : State.reset.pc = 0x200 := rfl
@[simp] theorem State.reset_sp : State.reset.sp = 0 := rfl
@[simp] theorem State.reset_dt : State.reset.dt = 0 := rfl
@[simp] theorem State.reset_st : State.reset.st = 0 := rfl
@[simp] theorem State.reset_halt : State.reset.halt = .running := rfl

@[simp] theorem State.reset_reg (r : RegIndex) : State.reset.reg r = 0 := by
  simp [State.reg, State.reset]

end Sys2Proof.Machine
end

