-- ==== Sys2Proof/Laws/Ops.lean ====
section
/-! SUPPORT. One lemma per shared operation, saying once everything it can do: memory access, byte sequences, the call
stack, the fatal-error entry, keys, the register ranges of Fx55 and Fx65. -/

namespace Sys2Proof.Machine

/-! ### Single bytes -/

theorem memRead_ok (s : State) {a : Nat} (h : a < 4096) : memRead s a = .ok (Memory.byte s.mem a) := by
  simp [memRead, h]

theorem memRead_error (s : State) {a : Nat} (h : 4096 ≤ a) :
    memRead s a = .error (.outOfBoundsAccess .memory a s.pc) := by
  simp [memRead, Nat.not_lt.mpr h]

theorem memWrite_ok (s : State) {a : Nat} (h : a < 4096) (b : Byte) :
    memWrite s a b = .ok (s.setMem (Memory.setByte s.mem a b)) := by
  simp [memWrite, h]

theorem memWrite_error (s : State) {a : Nat} (h : 4096 ≤ a) (b : Byte) :
    memWrite s a b = .error (.outOfBoundsAccess .memory a s.pc) := by
  simp [memWrite, Nat.not_lt.mpr h]

/-! ### Byte sequences: in range they succeed, else the first address of 4096 or more is reported -/

/-- The bytes read from `a` up, when all of them are in memory. -/
theorem readBytes_ok (s : State) (n : Nat) {a : Nat} (h : n = 0 ∨ a + n ≤ 4096) :
    readBytes s a n = .ok (List.ofFn fun j : Fin n => Memory.byte s.mem (a + j.val)) := by
  induction n generalizing a with
  | zero => simp [readBytes]
  | succ n ih =>
    have ha : a + n + 1 ≤ 4096 := by omega
    rw [readBytes, memRead_ok s (by omega), ih (a := a + 1) (by omega)]
    simp [List.ofFn_succ, Nat.add_assoc, Nat.add_comm 1]

/-- The first address out of range is reported (20_memory.md R76). -/
theorem readBytes_error (s : State) {n a k : Nat} (hk : k < n) (hok : k = 0 ∨ a + k ≤ 4096) (hbad : 4096 ≤ a + k) :
    readBytes s a n = .error (.outOfBoundsAccess .memory (a + k) s.pc) := by
  induction n generalizing a k with
  | zero => omega
  | succ n ih =>
    cases k with
    | zero => rw [readBytes, memRead_error s (by omega)]; rfl
    | succ k =>
      rw [readBytes, memRead_ok s (by omega), ih (a := a + 1) (k := k) (by omega) (by omega) (by omega)]
      simp only [show a + 1 + k = a + (k + 1) by omega]

/-- The state after writing bytes from `a` up, when all of them are in memory. -/
theorem writeBytes_ok (s : State) (bs : List Byte) {a : Nat} (h : bs = [] ∨ a + bs.length ≤ 4096) :
    writeBytes s a bs = .ok (s.setMem (Memory.setBytes s.mem a bs)) := by
  induction bs generalizing s a with
  | nil => rfl
  | cons b bs ih =>
    have ha : a + bs.length + 1 ≤ 4096 := by simpa [Nat.add_assoc] using h
    rw [writeBytes, memWrite_ok s (by omega)]
    exact ih _ (.inr (by omega))

/-- The first address out of range is reported (20_memory.md R76). -/
theorem writeBytes_error (s : State) {bs : List Byte} {a k : Nat} (hk : k < bs.length)
    (hok : k = 0 ∨ a + k ≤ 4096) (hbad : 4096 ≤ a + k) :
    writeBytes s a bs = .error (.outOfBoundsAccess .memory (a + k) s.pc) := by
  induction bs generalizing s a k with
  | nil => simp at hk
  | cons b bs ih =>
    cases k with
    | zero => rw [writeBytes, memWrite_error s (by omega)]; rfl
    | succ k =>
      simp only [List.length_cons] at hk
      rw [writeBytes, memWrite_ok s (by omega)]
      have := ih (s.setMem (Memory.setByte s.mem a b)) (a := a + 1) (k := k) (by omega) (by omega) (by omega)
      rw [show a + 1 + k = a + (k + 1) by omega] at this
      simpa using this

/-- Where a sequence of accesses from `a` first leaves memory: the offset of the first bad address. -/
theorem exists_first_bad {a n : Nat} (h : ¬ (n = 0 ∨ a + n ≤ 4096)) :
    ∃ k, k < n ∧ (k = 0 ∨ a + k ≤ 4096) ∧ 4096 ≤ a + k := by
  by_cases ha : 4096 ≤ a
  · exact ⟨0, by omega, .inl rfl, by omega⟩
  · exact ⟨4096 - a, by omega, .inr (by omega), by omega⟩

/-! ### The end of an instruction -/

@[simp] theorem finish_ok (s t : State) : finish s (.ok t) = .next t := rfl

@[simp] theorem finish_error (s : State) (e : Fault) : finish s (.error e) = .next (takeFatal e s) := rfl

theorem raise_eq (s : State) (e : Fault) : raise e s = .next (takeFatal e s) := rfl

/-- An instruction that ends by `finish` answers the next state it computed, or the fatal-error entry. -/
theorem finish_next {s t : State} {r : Except Fault State} (h : finish s r = .next t) :
    r = .ok t ∨ ∃ e, r = .error e ∧ t = takeFatal e s := by
  cases r with
  | ok u => simp only [finish_ok, Host.Outcome.next.injEq] at h; exact .inl (by rw [h])
  | error e => simp only [finish_error, Host.Outcome.next.injEq] at h; exact .inr ⟨e, rfl, h.symm⟩

/-- The memory a fatal error leaves is in canonical form. -/
theorem takeFatal_wf (e : Fault) (s : State) : Memory.wf (takeFatal e s).mem = true :=
  Memory.tabulate_wf _

/-- A fatal error is a halted state that records it. -/
theorem halts_raise (e : Fault) (s : State) : Halts (raise e s) e := ⟨_, rfl, rfl⟩

/-! ### The call stack -/

theorem pushReturn_ok {depth : Fin 17} {s : State} (h : s.sp.val < depth.val) (ret : Word) :
    pushReturn depth s ret = .ok { s with stack := s.stack.set s.sp.val ret (by omega), sp := ⟨s.sp.val + 1, by omega⟩ } := by
  simp [pushReturn, h]

theorem pushReturn_error {depth : Fin 17} {s : State} (h : depth.val ≤ s.sp.val) (ret : Word) :
    pushReturn depth s ret = .error (.outOfBoundsAccess .stackOverflow s.sp.val s.pc) := by
  simp [pushReturn, Nat.not_lt.mpr h]

theorem popReturn_ok {s : State} (h : s.sp.val ≠ 0) :
    popReturn s = .ok (s.stack[s.sp.val - 1]'(by omega), { s with sp := ⟨s.sp.val - 1, by omega⟩ }) := by
  simp [popReturn, h]

theorem popReturn_error {s : State} (h : s.sp.val = 0) :
    popReturn s = .error (.outOfBoundsAccess .stackUnderflow 0 s.pc) := by
  simp [popReturn, h]

/-! ### Keys -/

theorem keyState_ok (s : State) {k : Byte} (h : k.toNat < 16) : keyState s k = .ok (s.key[k.toNat] != 0) := by
  simp [keyState, h, pressed]

theorem keyState_error (s : State) {k : Byte} (h : 16 ≤ k.toNat) :
    keyState s k = .error (.outOfBoundsAccess .keypad k.toNat s.pc) := by
  simp [keyState, Nat.not_lt.mpr h]

/-- No key is found exactly when none is pressed. -/
theorem lowestPressed_none (s : State) : lowestPressed s = none ↔ ∀ k : KeyIndex, s.key[k] = 0 := by
  simp [lowestPressed, List.find?_eq_none, pressed]

/-- The key found is pressed, and no lower one is: "lowest index wins" (45_keypad_timers.md R252). -/
theorem lowestPressed_some (s : State) (k : KeyIndex) :
    lowestPressed s = some k ↔ s.key[k] ≠ 0 ∧ ∀ j : KeyIndex, j < k → s.key[j] = 0 := by
  unfold lowestPressed
  rw [List.find?_eq_some_iff_getElem]
  simp only [List.length_finRange, List.getElem_finRange, pressed, bne_iff_ne, ne_eq]
  constructor
  · rintro ⟨hk, i, hi, rfl, hlow⟩
    refine ⟨hk, fun j hj => ?_⟩
    have := hlow j.val (by simpa [Fin.lt_def] using hj)
    simpa using this
  · rintro ⟨hk, hlow⟩
    refine ⟨hk, k.val, k.isLt, by simp, fun j hj => ?_⟩
    have := hlow ⟨j, by omega⟩ (by simpa [Fin.lt_def] using hj)
    simpa using this

/-! ### Register ranges -/

theorem length_regsThrough (s : State) (x : RegIndex) : (regsThrough s x).length = x.val + 1 := by
  simp [regsThrough]

theorem getElem_regsThrough (s : State) (x : RegIndex) {j : Nat} (h : j < (regsThrough s x).length) :
    (regsThrough s x)[j] = s.v[j]'(by rw [length_regsThrough] at h; omega) := by
  simp [regsThrough]

theorem length_decimalDigits (a : Byte) : (decimalDigits a).length = 3 := rfl

theorem loadCount_fx65 (x : RegIndex) : loadCount fx65IncludesVx x = x.val := rfl

/-! ### The two memory transfers, whole -/

theorem storeAtIndex_ok {s : State} {bs : List Byte} (h : bs = [] ∨ s.i.toNat + bs.length ≤ 4096) :
    storeAtIndex bs s = .next (s.setMem (Memory.setBytes s.mem s.i.toNat bs)).advance := by
  simp [storeAtIndex, indexAddr, writeBytes_ok s bs h]

theorem storeAtIndex_error {s : State} {bs : List Byte} {k : Nat} (hk : k < bs.length)
    (hok : k = 0 ∨ s.i.toNat + k ≤ 4096) (hbad : 4096 ≤ s.i.toNat + k) :
    storeAtIndex bs s = raise (.outOfBoundsAccess .memory (s.i.toNat + k) s.pc) s := by
  simp [storeAtIndex, indexAddr, writeBytes_error s hk hok hbad, raise_eq]

theorem loadFromIndex_ok {s : State} {n : Nat} (h : n = 0 ∨ s.i.toNat + n ≤ 4096) :
    loadFromIndex n s =
      .next (s.setRegs (List.ofFn fun j : Fin n => Memory.byte s.mem (s.i.toNat + j.val))).advance := by
  simp [loadFromIndex, indexAddr, readBytes_ok s n h]

theorem loadFromIndex_error {s : State} {n k : Nat} (hk : k < n) (hok : k = 0 ∨ s.i.toNat + k ≤ 4096)
    (hbad : 4096 ≤ s.i.toNat + k) :
    loadFromIndex n s = raise (.outOfBoundsAccess .memory (s.i.toNat + k) s.pc) s := by
  simp [loadFromIndex, indexAddr, readBytes_error s hk hok hbad, raise_eq]

end Sys2Proof.Machine
end

