-- ==== Sys2Proof/Laws/Exec.lean ====
section
/-! SUPPORT. What an instruction and a step answer: the equation of every meaning that can raise an error, in its two
cases; that every instruction answers a next state; that it either keeps HALT or takes a fatal error; the cases of a
step. -/

namespace Sys2Proof.Machine

/-! ### Skips -/

/-- A skip changes PC alone. -/
theorem State.skipIf_eq (s : State) (c : Bool) : s.skipIf c = { s with pc := if c then s.pc + 4 else s.pc + 2 } := by
  cases c <;> rfl

/-- `PC + 2` is what `Advanced` says. -/
theorem advanced_of_pc {s t : State} (h : t.pc = s.pc + 2) : Advanced s t := by
  simp [Advanced, h]

/-- An update of registers and PC leaves the rest. -/
theorem sameBesidesRegs_of {s t : State} (h : t = { s with v := t.v, pc := t.pc }) : SameBesidesRegs s t := by
  rw [h]
  exact ⟨fun _ => rfl, rfl, ⟨rfl, rfl⟩, ⟨rfl, rfl⟩, rfl, rfl, rfl⟩

/-! ### Call and return -/

theorem execCall_ok (nnn : Addr12) {s : State} (h : s.sp.val < 16) :
    execCall nnn s = .next { s with
      stack := s.stack.set s.sp.val (s.pc + 2) (by omega), sp := ⟨s.sp.val + 1, by omega⟩, pc := zextAddr nnn } := by
  simp only [execCall, pushReturn_ok (depth := stackDepth) h]
  rfl

theorem execCall_error (nnn : Addr12) {s : State} (h : s.sp.val = 16) :
    execCall nnn s = raise (.outOfBoundsAccess .stackOverflow 16 s.pc) s := by
  simp only [execCall, pushReturn_error (depth := stackDepth) (Nat.le_of_eq h.symm), h]
  rfl

theorem execRet_ok {s : State} (j : Fin 16) (h : s.sp.val = j.val + 1) :
    execRet s = .next { s with sp := ⟨j.val, by omega⟩, pc := s.stack[j] } := by
  simp [execRet, popReturn_ok (s := s) (by omega), h, State.setPc]

theorem execRet_error {s : State} (h : s.sp.val = 0) :
    execRet s = raise (.outOfBoundsAccess .stackUnderflow 0 s.pc) s := by
  simp [execRet, popReturn_error h, raise_eq]

/-! ### Key skips -/

theorem skipOnKey_ok {s : State} {k : Byte} (want : Bool) (h : k.toNat < 16) :
    skipOnKey k want s = .next (s.skipIf ((s.key[k.toNat] != 0) = want)) := by
  simp only [skipOnKey, keyState_ok s h]
  rfl

theorem skipOnKey_error {s : State} {k : Byte} (want : Bool) (h : 16 ≤ k.toNat) :
    skipOnKey k want s = raise (.outOfBoundsAccess .keypad k.toNat s.pc) s := by
  simp [skipOnKey, keyState_error s h, raise_eq]

/-! ### Drawing -/

/-- The bytes of an n-row sprite at I. -/
def spriteRows (s : State) (n : Nat) : List Byte := List.ofFn fun r : Fin n => Memory.byte s.mem (s.i.toNat + r.val)

theorem execDrw_ok (x y n : Fin 16) {s : State} (h : n.val = 0 ∨ s.i.toNat + n.val ≤ 4096) :
    execDrw x y n s =
      .next ((s.setFb (drawRows (s.reg x) (s.reg y) 0 (spriteRows s n.val) (s.fb, false)).1).setReg flagReg
        (collisionFlag (drawRows (s.reg x) (s.reg y) 0 (spriteRows s n.val) (s.fb, false)).2)).advance := by
  simp only [execDrw, indexAddr, readBytes_ok s n.val h]
  rfl

theorem execDrw_error (x y n : Fin 16) {s : State} {k : Nat} (hk : k < n.val)
    (hok : k = 0 ∨ s.i.toNat + k ≤ 4096) (hbad : 4096 ≤ s.i.toNat + k) :
    execDrw x y n s = raise (.outOfBoundsAccess .memory (s.i.toNat + k) s.pc) s := by
  simp [execDrw, indexAddr, readBytes_error s hk hok hbad, raise_eq]

/-! ### Pixels -/

/-- Two pixels share a cell only if they are the same pixel (44_display.md R232). -/
theorem pixelIndex_inj {px px' : Column} {py py' : Row} :
    pixelIndex px py = pixelIndex px' py' ↔ px = px' ∧ py = py' := by
  constructor
  · intro h
    have := congrArg Fin.val h
    simp only [pixelIndex] at this
    exact ⟨Fin.ext (by omega), Fin.ext (by omega)⟩
  · rintro ⟨rfl, rfl⟩
    rfl

theorem Framebuffer.pixel_flip_same (fb : Framebuffer) (px : Column) (py : Row) :
    (fb.flip px py).pixel px py = !fb.pixel px py := by
  simp [Framebuffer.flip, Framebuffer.pixel]

theorem Framebuffer.pixel_flip_ne (fb : Framebuffer) {px px' : Column} {py py' : Row} (h : ¬ (px' = px ∧ py' = py)) :
    (fb.flip px py).pixel px' py' = fb.pixel px' py' := by
  have hne : (pixelIndex px py).val ≠ (pixelIndex px' py').val := fun e =>
    h ((pixelIndex_inj.mp (Fin.ext e.symm)))
  simp [Framebuffer.flip, Framebuffer.pixel, Vector.getElem_set_ne, hne]

/-- A framebuffer is its pixels. -/
theorem Framebuffer.ext_pixel {fb fb' : Framebuffer} (h : ∀ px py, fb.pixel px py = fb'.pixel px py) : fb = fb' := by
  apply Vector.ext
  intro j hj
  have := h ⟨j % 64, by omega⟩ ⟨j / 64, by omega⟩
  have hj' : j % 64 + 64 * (j / 64) = j := Nat.mod_add_div j 64
  simpa [Framebuffer.pixel, pixelIndex, hj'] using this

/-! ### Every instruction -/

/-- An instruction answers a next state: one that keeps HALT, or the state of a fatal error taken from `s`. -/
theorem exec_cases (i : Instr) (s : State) :
    ∃ t, exec i s = .next t ∧ (t.halt = s.halt ∨ ∃ e, t = takeFatal e s) := by
  have hfin (r : Except Fault State) (hr : ∀ t, r = .ok t → t.halt = s.halt) :
      ∃ t, finish s r = .next t ∧ (t.halt = s.halt ∨ ∃ e, t = takeFatal e s) := by
    cases r with
    | ok t => exact ⟨t, rfl, .inl (hr t rfl)⟩
    | error e => exact ⟨_, rfl, .inr ⟨e, rfl⟩⟩
  have hstore (bs : List Byte) :
      ∃ t, storeAtIndex bs s = .next t ∧ (t.halt = s.halt ∨ ∃ e, t = takeFatal e s) := by
    by_cases h : bs.length = 0 ∨ s.i.toNat + bs.length ≤ 4096
    · exact ⟨_, storeAtIndex_ok (h.imp List.length_eq_zero_iff.mp id), .inl rfl⟩
    · obtain ⟨k, hk, hok, hbad⟩ := exists_first_bad h
      exact ⟨_, storeAtIndex_error hk hok hbad, .inr ⟨_, rfl⟩⟩
  have hkey (k : Byte) (want : Bool) :
      ∃ t, skipOnKey k want s = .next t ∧ (t.halt = s.halt ∨ ∃ e, t = takeFatal e s) := by
    by_cases h : k.toNat < 16
    · exact ⟨_, skipOnKey_ok want h, .inl (State.skipIf_halt s _)⟩
    · exact ⟨_, skipOnKey_error want (Nat.not_lt.mp h), .inr ⟨_, rfl⟩⟩
  cases i with
  | ret =>
    by_cases h : s.sp.val = 0
    · exact ⟨_, execRet_error h, .inr ⟨_, rfl⟩⟩
    · exact ⟨_, execRet_ok (s := s) ⟨s.sp.val - 1, by omega⟩ (by simp only; omega), .inl rfl⟩
  | call nnn =>
    by_cases h : s.sp.val < 16
    · exact ⟨_, execCall_ok nnn h, .inl rfl⟩
    · exact ⟨_, execCall_error (s := s) nnn (by omega), .inr ⟨_, rfl⟩⟩
  | seImm x kk => exact ⟨_, rfl, .inl (State.skipIf_halt s _)⟩
  | sneImm x kk => exact ⟨_, rfl, .inl (State.skipIf_halt s _)⟩
  | seReg x y => exact ⟨_, rfl, .inl (State.skipIf_halt s _)⟩
  | sneReg x y => exact ⟨_, rfl, .inl (State.skipIf_halt s _)⟩
  | drw x y n =>
    by_cases h : n.val = 0 ∨ s.i.toNat + n.val ≤ 4096
    · exact ⟨_, execDrw_ok x y n h, .inl rfl⟩
    · obtain ⟨k, hk, hok, hbad⟩ := exists_first_bad h
      exact ⟨_, execDrw_error x y n hk hok hbad, .inr ⟨_, rfl⟩⟩
  | skp x => exact hkey _ _
  | sknp x => exact hkey _ _
  | ldVxK x =>
    cases h : lowestPressed s with
    | none => exact ⟨s, by simp only [exec, execLdVxK, h], .inl rfl⟩
    | some k => exact ⟨(s.setReg x (BitVec.ofNat 8 k.val)).advance, by simp only [exec, execLdVxK, h], .inl rfl⟩
  | ldFVx x =>
    by_cases h : (s.reg x).toNat < 16
    · exact ⟨(s.setI (glyphAddr (s.reg x))).advance, by simp only [exec, execLdFVx, h, if_true], .inl rfl⟩
    · exact ⟨s.advance, by simp only [exec, execLdFVx, h, if_false], .inl rfl⟩
  | ldBVx x => exact hstore _
  | ldMemVx x => exact hstore _
  | ldVxMem x =>
    by_cases h : x.val = 0 ∨ s.i.toNat + x.val ≤ 4096
    · exact ⟨_, loadFromIndex_ok h, .inl rfl⟩
    · obtain ⟨k, hk, hok, hbad⟩ := exists_first_bad h
      exact ⟨_, loadFromIndex_error hk hok hbad, .inr ⟨_, rfl⟩⟩
  | _ => exact ⟨_, rfl, .inl rfl⟩

/-! ### Fetch and step -/

theorem fetchWord_ok {s : State} (h : s.pc.toNat + 1 < 4096) :
    fetchWord s = .ok (wordOfBytes (Memory.byte s.mem s.pc.toNat) (Memory.byte s.mem (s.pc.toNat + 1))) := by
  simp only [fetchWord, memRead_ok s (a := s.pc.toNat) (by omega), memRead_ok s h]

theorem fetchWord_error {s : State} (h : 4096 ≤ s.pc.toNat) :
    fetchWord s = .error (.outOfBoundsAccess .memory s.pc.toNat s.pc) := by
  simp only [fetchWord, memRead_error s h]

theorem fetchWord_error_second {s : State} (h : s.pc.toNat = 4095) :
    fetchWord s = .error (.outOfBoundsAccess .memory 4096 s.pc) := by
  simp only [fetchWord, h, memRead_ok s (show 4095 < 4096 by omega), memRead_error s (show 4096 ≤ 4095 + 1 by omega)]

theorem step_halted {s : State} {e : Fault} (h : s.halt = .halted e) : step s = .fault e := by
  simp only [step, h]

theorem step_of_fetch_error {s : State} {e : Fault} (h : s.halt = .running) (hf : fetchInstr s = .error e) :
    step s = raise e s := by
  simp only [step, h, hf]

theorem step_of_fetch_ok {s : State} {i : Instr} (h : s.halt = .running) (hf : fetchInstr s = .ok i) :
    step s = exec i s := by
  simp only [step, h, hf]

/-- Everything a step that answers a next state can be: a running core that takes a fetch or decode error, or that
executes the instruction whose word lies at PC, both of whose bytes are then in memory. -/
theorem step_cases {s t : State} (h : step s = .next t) :
    s.halt = .running ∧
      ((∃ e, fetchInstr s = .error e ∧ t = takeFatal e s) ∨
       (∃ i, fetchInstr s = .ok i ∧ s.pc.toNat + 1 < 4096 ∧ exec i s = .next t)) := by
  cases hh : s.halt with
  | halted e => rw [step_halted hh] at h; exact absurd h (by simp)
  | running =>
    refine ⟨rfl, ?_⟩
    cases hf : fetchInstr s with
    | error e =>
      rw [step_of_fetch_error hh hf, raise_eq, Host.Outcome.next.injEq] at h
      exact .inl ⟨e, rfl, h.symm⟩
    | ok i =>
      refine .inr ⟨i, rfl, ?_, by rw [← step_of_fetch_ok hh hf]; exact h⟩
      rcases Nat.lt_trichotomy s.pc.toNat 4095 with hlt | heq | hgt
      · omega
      · simp [fetchInstr, fetchWord_error_second heq] at hf
      · simp [fetchInstr, fetchWord_error (s := s) (by omega)] at hf

end Sys2Proof.Machine
end

