-- ==== Sys2Proof/Laws/PerInstr.lean ====
section
/-! SUPPORT. The per-instruction family FixedBits: the encoded word of every instruction has the fixed bits that
spec/opcode_table.json gives its row (30_encoding.md R91, R94). One lemma per constructor of Instr. -/

namespace Sys2Proof.Laws.FixedBits

/-- The instruction's word is covered by the instruction's own row of the opcode table. -/
def Statement (i : Instr) : Prop := i.row.covers (encode i) = true

/-! ### The four masks of the table as arithmetic -/

theorem toNat_and_F000 (w : Word) : (w &&& (0xF000 : Word)).toNat = w.toNat / 4096 * 4096 := by
  have h : w &&& (0xF000 : Word) = (w >>> 12) <<< 12 := by
    ext i hi
    interval_cases i <;> simp
  have := w.isLt
  rw [h]
  simp only [BitVec.toNat_shiftLeft, BitVec.toNat_ushiftRight, Nat.shiftLeft_eq, Nat.shiftRight_eq_div_pow]
  omega

/-- The category and the low `k` bits of a word as a number, for `k` at most 12. -/
theorem toNat_category_or_low (w : Word) (k : Nat) (hk : k ≤ 12) :
    ((w >>> 12) <<< 12 ||| (w.setWidth k).setWidth 16).toNat = w.toNat / 4096 * 4096 + w.toNat % 2 ^ k := by
  have hw := w.isLt
  have hlow : w.toNat % 2 ^ k < 2 ^ 12 :=
    Nat.lt_of_lt_of_le (Nat.mod_lt _ (Nat.two_pow_pos k)) (Nat.pow_le_pow_right (by decide) hk)
  rw [BitVec.toNat_or]
  simp only [BitVec.toNat_shiftLeft, BitVec.toNat_ushiftRight, Nat.shiftRight_eq_div_pow, BitVec.toNat_setWidth]
  have h1 : (w.toNat / 2 ^ 12) <<< 12 % 2 ^ 16 = (w.toNat / 2 ^ 12) <<< 12 := by rw [Nat.shiftLeft_eq]; omega
  rw [h1, Nat.mod_eq_of_lt (b := 2 ^ 16) (by omega), ← Nat.shiftLeft_add_eq_or_of_lt hlow, Nat.shiftLeft_eq,
    show (2 : Nat) ^ 12 = 4096 from rfl]

theorem toNat_and_F00F (w : Word) : (w &&& (0xF00F : Word)).toNat = w.toNat / 4096 * 4096 + w.toNat % 16 := by
  have h : w &&& (0xF00F : Word) = (w >>> 12) <<< 12 ||| (w.setWidth 4).setWidth 16 := by
    ext i hi
    interval_cases i <;> simp
  rw [h]
  exact toNat_category_or_low w 4 (by decide)

theorem toNat_and_F0FF (w : Word) : (w &&& (0xF0FF : Word)).toNat = w.toNat / 4096 * 4096 + w.toNat % 256 := by
  have h : w &&& (0xF0FF : Word) = (w >>> 12) <<< 12 ||| (w.setWidth 8).setWidth 16 := by
    ext i hi
    interval_cases i <;> simp
  rw [h]
  exact toNat_category_or_low w 8 (by decide)

/-! ### The formats of 30_encoding.md R91 -/

/-- Format `ADDR`: the category is fixed. -/
theorem encodeAddr_fixed (op : BitVec 4) (nnn : Addr12) (v : Word) (hv : v.toNat = op.toNat * 4096) :
    encodeAddr op nnn &&& (0xF000 : Word) = v := by
  apply BitVec.eq_of_toNat_eq
  rw [toNat_and_F000, toNat_encodeAddr]; omega

/-- Format `XKK`: the category is fixed. -/
theorem encodeXkk_fixed (op : BitVec 4) (x : RegIndex) (kk : Byte) (v : Word) (hv : v.toNat = op.toNat * 4096) :
    encodeXkk op x kk &&& (0xF000 : Word) = v := by
  apply BitVec.eq_of_toNat_eq
  rw [toNat_and_F000, toNat_encodeXkk]; omega

/-- Format `XSUB`: the category and the low byte are fixed. -/
theorem encodeXsub_fixed (op : BitVec 4) (x : RegIndex) (sub : Byte) (v : Word)
    (hv : v.toNat = op.toNat * 4096 + sub.toNat) : encodeXkk op x sub &&& (0xF0FF : Word) = v := by
  apply BitVec.eq_of_toNat_eq
  rw [toNat_and_F0FF, toNat_encodeXkk]; omega

/-- Format `XY`: the category and the low nibble are fixed. -/
theorem encodeXy_fixed (op : BitVec 4) (x y sub : Fin 16) (v : Word) (hv : v.toNat = op.toNat * 4096 + sub.val) :
    encodeXyn op x y sub &&& (0xF00F : Word) = v := by
  apply BitVec.eq_of_toNat_eq
  rw [toNat_and_F00F, toNat_encodeXyn]; omega

/-- Format `XYN`: the category is fixed. -/
theorem encodeXyn_fixed (op : BitVec 4) (x y n : Fin 16) (v : Word) (hv : v.toNat = op.toNat * 4096) :
    encodeXyn op x y n &&& (0xF000 : Word) = v := by
  apply BitVec.eq_of_toNat_eq
  rw [toNat_and_F000, toNat_encodeXyn]; omega

/-! ### One lemma per instruction -/

theorem cls : Statement .cls :=
  decide_eq_true rfl

theorem ret : Statement .ret :=
  decide_eq_true rfl

theorem jp (nnn : Addr12) : Statement (.jp nnn) :=
  decide_eq_true (encodeAddr_fixed _ _ _ rfl)

theorem call (nnn : Addr12) : Statement (.call nnn) :=
  decide_eq_true (encodeAddr_fixed _ _ _ rfl)

theorem seImm (x : RegIndex) (kk : Byte) : Statement (.seImm x kk) :=
  decide_eq_true (encodeXkk_fixed _ _ _ _ rfl)

theorem sneImm (x : RegIndex) (kk : Byte) : Statement (.sneImm x kk) :=
  decide_eq_true (encodeXkk_fixed _ _ _ _ rfl)

theorem seReg (x y : RegIndex) : Statement (.seReg x y) :=
  decide_eq_true (encodeXy_fixed _ _ _ _ _ rfl)

theorem ldImm (x : RegIndex) (kk : Byte) : Statement (.ldImm x kk) :=
  decide_eq_true (encodeXkk_fixed _ _ _ _ rfl)

theorem addImm (x : RegIndex) (kk : Byte) : Statement (.addImm x kk) :=
  decide_eq_true (encodeXkk_fixed _ _ _ _ rfl)

theorem ldReg (x y : RegIndex) : Statement (.ldReg x y) :=
  decide_eq_true (encodeXy_fixed _ _ _ _ _ rfl)

theorem orReg (x y : RegIndex) : Statement (.orReg x y) :=
  decide_eq_true (encodeXy_fixed _ _ _ _ _ rfl)

theorem andReg (x y : RegIndex) : Statement (.andReg x y) :=
  decide_eq_true (encodeXy_fixed _ _ _ _ _ rfl)

theorem xorReg (x y : RegIndex) : Statement (.xorReg x y) :=
  decide_eq_true (encodeXy_fixed _ _ _ _ _ rfl)

theorem addReg (x y : RegIndex) : Statement (.addReg x y) :=
  decide_eq_true (encodeXy_fixed _ _ _ _ _ rfl)

theorem sub (x y : RegIndex) : Statement (.sub x y) :=
  decide_eq_true (encodeXy_fixed _ _ _ _ _ rfl)

theorem shr (x y : RegIndex) : Statement (.shr x y) :=
  decide_eq_true (encodeXy_fixed _ _ _ _ _ rfl)

theorem subn (x y : RegIndex) : Statement (.subn x y) :=
  decide_eq_true (encodeXy_fixed _ _ _ _ _ rfl)

theorem shl (x y : RegIndex) : Statement (.shl x y) :=
  decide_eq_true (encodeXy_fixed _ _ _ _ _ rfl)

theorem sneReg (x y : RegIndex) : Statement (.sneReg x y) :=
  decide_eq_true (encodeXy_fixed _ _ _ _ _ rfl)

theorem ldI (nnn : Addr12) : Statement (.ldI nnn) :=
  decide_eq_true (encodeAddr_fixed _ _ _ rfl)

theorem jpV0 (nnn : Addr12) : Statement (.jpV0 nnn) :=
  decide_eq_true (encodeAddr_fixed _ _ _ rfl)

theorem rnd (x : RegIndex) (kk : Byte) : Statement (.rnd x kk) :=
  decide_eq_true (encodeXkk_fixed _ _ _ _ rfl)

theorem drw (x y : RegIndex) (n : Fin 16) : Statement (.drw x y n) :=
  decide_eq_true (encodeXyn_fixed _ _ _ _ _ rfl)

theorem skp (x : RegIndex) : Statement (.skp x) :=
  decide_eq_true (encodeXsub_fixed _ _ _ _ rfl)

theorem sknp (x : RegIndex) : Statement (.sknp x) :=
  decide_eq_true (encodeXsub_fixed _ _ _ _ rfl)

theorem ldVxDt (x : RegIndex) : Statement (.ldVxDt x) :=
  decide_eq_true (encodeXsub_fixed _ _ _ _ rfl)

theorem ldVxK (x : RegIndex) : Statement (.ldVxK x) :=
  decide_eq_true (encodeXsub_fixed _ _ _ _ rfl)

theorem ldDtVx (x : RegIndex) : Statement (.ldDtVx x) :=
  decide_eq_true (encodeXsub_fixed _ _ _ _ rfl)

theorem ldStVx (x : RegIndex) : Statement (.ldStVx x) :=
  decide_eq_true (encodeXsub_fixed _ _ _ _ rfl)

theorem addIVx (x : RegIndex) : Statement (.addIVx x) :=
  decide_eq_true (encodeXsub_fixed _ _ _ _ rfl)

theorem ldFVx (x : RegIndex) : Statement (.ldFVx x) :=
  decide_eq_true (encodeXsub_fixed _ _ _ _ rfl)

theorem ldBVx (x : RegIndex) : Statement (.ldBVx x) :=
  decide_eq_true (encodeXsub_fixed _ _ _ _ rfl)

theorem ldMemVx (x : RegIndex) : Statement (.ldMemVx x) :=
  decide_eq_true (encodeXsub_fixed _ _ _ _ rfl)

theorem ldVxMem (x : RegIndex) : Statement (.ldVxMem x) :=
  decide_eq_true (encodeXsub_fixed _ _ _ _ rfl)

end Sys2Proof.Laws.FixedBits
end

