-- ==== Sys2Proof/Tests/Slice0.lean ====
section
/-! SUPPORT. The model's own tests: decoding of one word per instruction, the check on words, single steps whose
expected results are the vectors of 95_test_vectors.md (named in each comment), and one witness per statement with
hypotheses. -/

namespace Sys2Proof.Tests

set_option Elab.async false

open Sys2Proof.Machine

/-! ### Helpers -/

/-- The state after construction with some registers set. -/
def withRegs (l : List (RegIndex × Byte)) : State := l.foldl (fun s p => s.setReg p.1 p.2) State.reset

/-- The word placed at PC, one step, and a check of the next state. -/
def after (w : Nat) (s : State) (check : State → Bool) : Bool :=
  match step (s.withFetchWord 16 w) with
  | .next t => check t
  | _ => false

/-- The fatal error recorded after one step on a word. -/
def errorOf (w : Nat) (s : State) : Option Fault :=
  match step (s.withFetchWord 16 w) with
  | .next t => match t.halt with
    | .halted e => some e
    | .running => none
  | _ => none

/-! ### Decoding: each word written out by hand from its pattern (30_encoding.md R91, R94) -/

theorem test_decode_cls : decode 0x00E0 = .ok .cls := rfl
theorem test_decode_ret : decode 0x00EE = .ok .ret := rfl
theorem test_decode_jp : decode 0x1234 = .ok (.jp 0x234) := rfl
theorem test_decode_call : decode 0x2ABC = .ok (.call 0xABC) := rfl
theorem test_decode_seImm : decode 0x3A05 = .ok (.seImm 0xA 0x05) := rfl
theorem test_decode_sneImm : decode 0x4F80 = .ok (.sneImm 0xF 0x80) := rfl
theorem test_decode_seReg : decode 0x5AB0 = .ok (.seReg 0xA 0xB) := rfl
theorem test_decode_ldImm : decode 0x6A05 = .ok (.ldImm 0xA 0x05) := rfl
theorem test_decode_addImm : decode 0x7CFF = .ok (.addImm 0xC 0xFF) := rfl
theorem test_decode_ldReg : decode 0x8AB0 = .ok (.ldReg 0xA 0xB) := rfl
theorem test_decode_orReg : decode 0x8AB1 = .ok (.orReg 0xA 0xB) := rfl
theorem test_decode_andReg : decode 0x8AB2 = .ok (.andReg 0xA 0xB) := rfl
theorem test_decode_xorReg : decode 0x8AB3 = .ok (.xorReg 0xA 0xB) := rfl
theorem test_decode_addReg : decode 0x8AB4 = .ok (.addReg 0xA 0xB) := rfl
theorem test_decode_sub : decode 0x8AB5 = .ok (.sub 0xA 0xB) := rfl
theorem test_decode_shr : decode 0x8AB6 = .ok (.shr 0xA 0xB) := rfl
theorem test_decode_subn : decode 0x8AB7 = .ok (.subn 0xA 0xB) := rfl
theorem test_decode_shl : decode 0x8ABE = .ok (.shl 0xA 0xB) := rfl
theorem test_decode_sneReg : decode 0x9AB0 = .ok (.sneReg 0xA 0xB) := rfl
theorem test_decode_ldI : decode 0xA300 = .ok (.ldI 0x300) := rfl
theorem test_decode_jpV0 : decode 0xB300 = .ok (.jpV0 0x300) := rfl
theorem test_decode_rnd : decode 0xC30F = .ok (.rnd 0x3 0x0F) := rfl
theorem test_decode_drw : decode 0xD125 = .ok (.drw 0x1 0x2 0x5) := rfl
theorem test_decode_skp : decode 0xE39E = .ok (.skp 0x3) := rfl
theorem test_decode_sknp : decode 0xE1A1 = .ok (.sknp 0x1) := rfl
theorem test_decode_ldVxDt : decode 0xF507 = .ok (.ldVxDt 0x5) := rfl
theorem test_decode_ldVxK : decode 0xFC0A = .ok (.ldVxK 0xC) := rfl
theorem test_decode_ldDtVx : decode 0xF515 = .ok (.ldDtVx 0x5) := rfl
theorem test_decode_ldStVx : decode 0xF618 = .ok (.ldStVx 0x6) := rfl
theorem test_decode_addIVx : decode 0xF21E = .ok (.addIVx 0x2) := rfl
theorem test_decode_ldFVx : decode 0xF029 = .ok (.ldFVx 0x0) := rfl
theorem test_decode_ldBVx : decode 0xF033 = .ok (.ldBVx 0x0) := rfl
theorem test_decode_ldMemVx : decode 0xF355 = .ok (.ldMemVx 0x3) := rfl
theorem test_decode_ldVxMem : decode 0xF265 = .ok (.ldVxMem 0x2) := rfl

/-! ### The check on words: an ill-formed word for each category (30_encoding.md R96, R97), and the decoder's refusal -/

theorem test_illegal_0000 : legalWord 0x0000 = false ∧ decode 0x0000 = .error (.undecodableOpcode 0x0000) := ⟨rfl, rfl⟩
theorem test_illegal_00E1 : legalWord 0x00E1 = false ∧ decode 0x00E1 = .error (.undecodableOpcode 0x00E1) := ⟨rfl, rfl⟩
theorem test_illegal_0FFF : legalWord 0x0FFF = false ∧ decode 0x0FFF = .error (.undecodableOpcode 0x0FFF) := ⟨rfl, rfl⟩
theorem test_illegal_5AB1 : legalWord 0x5AB1 = false ∧ decode 0x5AB1 = .error (.undecodableOpcode 0x5AB1) := ⟨rfl, rfl⟩
theorem test_illegal_8AB8 : legalWord 0x8AB8 = false ∧ decode 0x8AB8 = .error (.undecodableOpcode 0x8AB8) := ⟨rfl, rfl⟩
theorem test_illegal_8ABF : legalWord 0x8ABF = false ∧ decode 0x8ABF = .error (.undecodableOpcode 0x8ABF) := ⟨rfl, rfl⟩
theorem test_illegal_9AB1 : legalWord 0x9AB1 = false ∧ decode 0x9AB1 = .error (.undecodableOpcode 0x9AB1) := ⟨rfl, rfl⟩
theorem test_illegal_E19F : legalWord 0xE19F = false ∧ decode 0xE19F = .error (.undecodableOpcode 0xE19F) := ⟨rfl, rfl⟩
theorem test_illegal_E000 : legalWord 0xE000 = false ∧ decode 0xE000 = .error (.undecodableOpcode 0xE000) := ⟨rfl, rfl⟩
theorem test_illegal_F000 : legalWord 0xF000 = false ∧ decode 0xF000 = .error (.undecodableOpcode 0xF000) := ⟨rfl, rfl⟩
theorem test_illegal_F066 : legalWord 0xF066 = false ∧ decode 0xF066 = .error (.undecodableOpcode 0xF066) := ⟨rfl, rfl⟩
theorem test_illegal_F0FF : legalWord 0xF0FF = false ∧ decode 0xF0FF = .error (.undecodableOpcode 0xF0FF) := ⟨rfl, rfl⟩

theorem test_truncated : decodeBytes [0x00] = .error .truncated := rfl

theorem test_decode_bytes_big_endian : decodeBytes [0x6A, 0x05, 0x12] = .ok (.ldImm 0xA 0x05, [0x12]) := rfl

theorem test_decode_table_word : decodeTableWord 16 0xD125 = some (.drw 0x1 0x2 0x5) := rfl

/-! ### Single steps -/

/-- V-D1. -/
theorem test_cls_clears : after 0x00E0 (State.reset.setFb (Vector.replicate 2048 true)) (fun t => t.fb.pixel 0 0 == false && t.fb.pixel 63 31 == false && t.pc == 0x202) = true := by decide +kernel

/-- V-C1. -/
theorem test_ret_underflow : errorOf 0x00EE State.reset = some (.outOfBoundsAccess .stackUnderflow 0 0x200) := by decide +kernel

/-- V-C3. -/
theorem test_ret_deepest_entry : after 0x00EE { State.reset with pc := 0x300, sp := 16, stack := State.reset.stack.set 15 0x040A } (fun t => t.pc == 0x040A && t.sp == 15) = true := by decide +kernel

/-- V-C4. -/
theorem test_jp_self : after 0x1200 State.reset (fun t => t.pc == 0x200) = true := by decide +kernel

/-- V-C7. -/
theorem test_call_sixteenth : after 0x2210 { State.reset with sp := 15 } (fun t => t.pc == 0x210 && t.sp == 16 && t.stack[15] == 0x202) = true := by decide +kernel

/-- V-C8. -/
theorem test_call_overflow : errorOf 0x2210 { State.reset with sp := 16 } = some (.outOfBoundsAccess .stackOverflow 16 0x200) := by decide +kernel

/-- V-C9. -/
theorem test_seImm_taken : after 0x3A05 (withRegs [(0xA, 0x05)]) (fun t => t.pc == 0x204) = true := by decide +kernel

/-- V-C13: the skip lands at 0x1000, outside memory. -/
theorem test_seImm_top_of_memory : after 0x3000 { State.reset with pc := 0xFFC } (fun t => t.pc == 0x1000) = true := by decide +kernel

/-- V-C11. -/
theorem test_sneImm_not_taken : after 0x4A05 (withRegs [(0xA, 0x05)]) (fun t => t.pc == 0x202) = true := by decide +kernel

/-- V-C12. -/
theorem test_sneImm_taken : after 0x4A05 (withRegs [(0xA, 0x06)]) (fun t => t.pc == 0x204) = true := by decide +kernel

/-- V-C15. -/
theorem test_seReg_not_taken : after 0x5AB0 (withRegs [(0xA, 0x07), (0xB, 0x08)]) (fun t => t.pc == 0x202) = true := by decide +kernel

/-- V-C16. -/
theorem test_seReg_same : after 0x5AA0 (withRegs [(0xA, 0x09)]) (fun t => t.pc == 0x204) = true := by decide +kernel

/-- V-C18. -/
theorem test_sneReg_not_taken : after 0x9AB0 (withRegs [(0xA, 0x07), (0xB, 0x07)]) (fun t => t.pc == 0x202) = true := by decide +kernel

/-- V-C19. -/
theorem test_sneReg_taken : after 0x9AB0 (withRegs [(0xA, 0x07), (0xB, 0x08)]) (fun t => t.pc == 0x204) = true := by decide +kernel

/-- V-C21. -/
theorem test_jpV0_adds : after 0xB300 (withRegs [(0x0, 0x10)]) (fun t => t.pc == 0x310) = true := by decide +kernel

/-- V-C22. -/
theorem test_jpV0_largest : after 0xBFFF (withRegs [(0x0, 0xFF)]) (fun t => t.pc == 0x10FE) = true := by decide +kernel

/-- V-A1. -/
theorem test_ldImm_vf_as_data : after 0x6F42 (withRegs [(0xF, 0x01)]) (fun t => t.reg 0xF == 0x42 && t.pc == 0x202) = true := by decide +kernel

/-- V-A2. -/
theorem test_addImm_wraps_no_flag : after 0x7AFF (withRegs [(0xA, 0x01), (0xF, 0x55)]) (fun t => t.reg 0xA == 0x00 && t.reg 0xF == 0x55) = true := by decide +kernel

/-- V-A4. -/
theorem test_addImm_vf : after 0x7F01 (withRegs [(0xF, 0xFF)]) (fun t => t.reg 0xF == 0x00) = true := by decide +kernel

/-- V-A6. -/
theorem test_ldReg_copies : after 0x8AB0 (withRegs [(0xB, 0x33)]) (fun t => t.reg 0xA == 0x33 && t.reg 0xB == 0x33) = true := by decide +kernel

/-- V-A7. -/
theorem test_orReg_no_flag : after 0x8AB1 (withRegs [(0xA, 0xF0), (0xB, 0x0F), (0xF, 0x77)]) (fun t => t.reg 0xA == 0xFF && t.reg 0xF == 0x77) = true := by decide +kernel

/-- V-A8. -/
theorem test_andReg_no_flag : after 0x8AB2 (withRegs [(0xA, 0xF3), (0xB, 0x3F), (0xF, 0x77)]) (fun t => t.reg 0xA == 0x33 && t.reg 0xF == 0x77) = true := by decide +kernel

/-- V-A9. -/
theorem test_xorReg_no_flag : after 0x8AB3 (withRegs [(0xA, 0xFF), (0xB, 0x0F), (0xF, 0x77)]) (fun t => t.reg 0xA == 0xF0 && t.reg 0xF == 0x77) = true := by decide +kernel

/-- V-A10. -/
theorem test_xorReg_same : after 0x8AA3 (withRegs [(0xA, 0x5A)]) (fun t => t.reg 0xA == 0x00) = true := by decide +kernel

/-- V-A14. -/
theorem test_addReg_flag_wins : after 0x8F14 (withRegs [(0xF, 0x10), (0x1, 0xF0)]) (fun t => t.reg 0xF == 0x01) = true := by decide +kernel

/-- V-A15. -/
theorem test_addReg_old_vf_operand : after 0x81F4 (withRegs [(0x1, 0x03), (0xF, 0x02)]) (fun t => t.reg 0x1 == 0x05 && t.reg 0xF == 0x00) = true := by decide +kernel

/-- V-A18. -/
theorem test_sub_equal_is_strict : after 0x8AB5 (withRegs [(0xA, 0x03), (0xB, 0x03), (0xF, 0x01)]) (fun t => t.reg 0xA == 0x00 && t.reg 0xF == 0x00) = true := by decide +kernel

/-- V-A19. -/
theorem test_sub_borrow : after 0x8AB5 (withRegs [(0xA, 0x01), (0xB, 0x08), (0xF, 0x01)]) (fun t => t.reg 0xA == 0xF9 && t.reg 0xF == 0x00) = true := by decide +kernel

/-- V-A26. -/
theorem test_shr_ignores_vy : after 0x8AB6 (withRegs [(0xA, 0x80), (0xB, 0xFF)]) (fun t => t.reg 0xA == 0x40 && t.reg 0xF == 0x00) = true := by decide +kernel

/-- V-A27. -/
theorem test_shr_vf : after 0x8F06 (withRegs [(0xF, 0x03)]) (fun t => t.reg 0xF == 0x01) = true := by decide +kernel

/-- V-A29. -/
theorem test_subn_equal_is_strict : after 0x8AB7 (withRegs [(0xA, 0x08), (0xB, 0x08), (0xF, 0x01)]) (fun t => t.reg 0xA == 0x00 && t.reg 0xF == 0x00) = true := by decide +kernel

/-- V-A30. -/
theorem test_subn_wraps : after 0x8AB7 (withRegs [(0xA, 0x08), (0xB, 0x03), (0xF, 0x01)]) (fun t => t.reg 0xA == 0xFB && t.reg 0xF == 0x00) = true := by decide +kernel

/-- V-A32. -/
theorem test_shl_out : after 0x8A0E (withRegs [(0xA, 0x81)]) (fun t => t.reg 0xA == 0x02 && t.reg 0xF == 0x01) = true := by decide +kernel

/-- V-A34. -/
theorem test_shl_no_out : after 0x8A0E (withRegs [(0xA, 0x7F), (0xF, 0x01)]) (fun t => t.reg 0xA == 0xFE && t.reg 0xF == 0x00) = true := by decide +kernel

/-- V-A39: with kk = 0 the result is 0 whatever the draw. -/
theorem test_rnd_masked (s : State) : ∃ t, exec (.rnd 0x3 0x00) s = .next t ∧ t.reg 0x3 = 0x00 :=
  ⟨_, rfl, by simp⟩

/-- R181: the draw is counted and PC advances, whatever the byte. -/
theorem test_rnd_counts_the_draw : after 0xC30F State.reset (fun t => t.draws == 1 && t.pc == 0x202) = true := by decide +kernel

/-- V-M2. -/
theorem test_ldI_largest : after 0xAFFF State.reset (fun t => t.i == 0x0FFF) = true := by decide +kernel

/-- V-M4. -/
theorem test_addIVx_wraps : after 0xF21E ((withRegs [(0x2, 0x01), (0xF, 0x55)]).setI 0xFFFF) (fun t => t.i == 0x0000 && t.reg 0xF == 0x55) = true := by decide +kernel

/-- V-M5. -/
theorem test_addIVx_no_12_bit_wrap : after 0xF21E ((withRegs [(0x2, 0x01)]).setI 0x0FFF) (fun t => t.i == 0x1000) = true := by decide +kernel

/-- V-M7. -/
theorem test_ldFVx_last_glyph : after 0xF029 (withRegs [(0x0, 0x0F)]) (fun t => t.i == 0x004B) = true := by decide +kernel

/-- V-M8. -/
theorem test_ldFVx_sixteen : after 0xF029 ((withRegs [(0x0, 0x10)]).setI 0x0234) (fun t => t.i == 0x0234 && t.pc == 0x202) = true := by decide +kernel

/-- V-M10. -/
theorem test_ldBVx_digits : after 0xF033 ((withRegs [(0x0, 0x80)]).setI 0x0300) (fun t => Memory.byte t.mem 0x300 == 1 && Memory.byte t.mem 0x301 == 2 && Memory.byte t.mem 0x302 == 8) = true := by decide +kernel

/-- V-M15. -/
theorem test_ldBVx_last_address : errorOf 0xF033 ((withRegs [(0x0, 0x07)]).setI 0x0FFE) = some (.outOfBoundsAccess .memory 0x1000 0x200) := by decide +kernel

/-- V-M16. -/
theorem test_ldMemVx_x0 : after 0xF055 ((withRegs [(0x0, 0xAB), (0x1, 0xCD)]).setI 0x0300) (fun t => Memory.byte t.mem 0x300 == 0xAB && Memory.byte t.mem 0x301 == 0 && t.i == 0x300) = true := by decide +kernel

/-- V-M18. -/
theorem test_ldMemVx_last_address : errorOf 0xF155 (State.reset.setI 0x0FFF) = some (.outOfBoundsAccess .memory 0x1000 0x200) := by decide +kernel

/-- V-M20. -/
theorem test_ldVxMem_x0_no_access : after 0xF065 ((withRegs [(0x0, 0x11)]).setI 0xFFFF) (fun t => t.reg 0x0 == 0x11 && t.pc == 0x202) = true := by decide +kernel

/-- V-M21. -/
theorem test_ldVxMem_leaves_vx : after 0xF365 (((withRegs [(0x3, 0xAA)]).setMem (Memory.setBytes [] 0x300 [1, 2, 3, 4])).setI 0x0300) (fun t => t.reg 0x0 == 1 && t.reg 0x1 == 2 && t.reg 0x2 == 3 && t.reg 0x3 == 0xAA) = true := by decide +kernel

/-- V-M22: with the parameter true, `Fx65` loads Vx too. -/
theorem test_ldVxMem_parameter :
    (match loadFromIndex (loadCount true 3) ((State.reset.setMem (Memory.setBytes [] 0x300 [1, 2, 3, 4])).setI 0x0300) with
      | .next t => t.reg 0x3 == 0x04
      | _ => false) = true := by decide +kernel

/-- V-D3: both axes wrap. -/
theorem test_drw_wraps : after 0xD012 (((withRegs [(0x0, 0x3E), (0x1, 0x1E)]).setMem (Memory.setBytes [] 0x300 [0xFF, 0xFF])).setI 0x0300) (fun t => t.fb.pixel 63 31 && t.fb.pixel 0 31 && t.fb.pixel 5 30 && !t.fb.pixel 6 30 && !t.fb.pixel 0 0 && t.reg 0xF == 0x00) = true := by decide +kernel

/-- V-D8, with the pixel already set: VF is the coordinate before and the collision after. -/
theorem test_drw_collision_and_vf_coordinate : after 0xDF11 (((((withRegs [(0xF, 0x05), (0x1, 0x02)]).setFb (State.reset.fb.flip 5 2)).setMem (Memory.setBytes [] 0x300 [0x80])).setI 0x0300)) (fun t => !t.fb.pixel 5 2 && t.reg 0xF == 0x01) = true := by decide +kernel

/-- V-D10. -/
theorem test_drw_last_address : errorOf 0xD012 (State.reset.setI 0x0FFF) = some (.outOfBoundsAccess .memory 0x1000 0x200) := by decide +kernel

/-- V-K1. -/
theorem test_skp_pressed : after 0xE19E ((withRegs [(0x1, 0x05)]).setKey 5 1) (fun t => t.pc == 0x204) = true := by decide +kernel

/-- V-K5. -/
theorem test_skp_out_of_range : errorOf 0xE19E (withRegs [(0x1, 0x10)]) = some (.outOfBoundsAccess .keypad 0x10 0x200) := by decide +kernel

/-- V-K4. -/
theorem test_sknp_pressed : after 0xE1A1 ((withRegs [(0x1, 0x05)]).setKey 5 1) (fun t => t.pc == 0x202) = true := by decide +kernel

/-- V-K3. -/
theorem test_sknp_released : after 0xE1A1 (withRegs [(0x1, 0x05)]) (fun t => t.pc == 0x204) = true := by decide +kernel

/-- V-K9. -/
theorem test_ldVxK_waits : after 0xF30A State.reset (fun t => t.pc == 0x200 && t.reg 0x3 == 0x00) = true := by decide +kernel

/-- V-K10. -/
theorem test_ldVxK_lowest : after 0xF30A ((State.reset.setKey 3 1).setKey 7 1) (fun t => t.reg 0x3 == 0x03 && t.pc == 0x202) = true := by decide +kernel

/-- V-K12. -/
theorem test_ldVxDt_reads : after 0xF507 (State.reset.setDt 0x3C) (fun t => t.reg 0x5 == 0x3C) = true := by decide +kernel

/-- V-K13. -/
theorem test_ldDtVx_sets : after 0xF515 (withRegs [(0x5, 0x3C)]) (fun t => t.dt == 0x3C && t.st == 0x00) = true := by decide +kernel

/-- V-K14. -/
theorem test_ldStVx_sets : after 0xF618 (withRegs [(0x6, 0x02)]) (fun t => t.st == 0x02 && t.dt == 0x00) = true := by decide +kernel

/-! ### The cycle and the host -/

/-- V-E10: a cycle with nothing loaded. -/
theorem test_empty_memory_halts : ∃ t, step State.reset = .next t ∧ t.halt = .halted (.undecodableOpcode 0x0000 0x200) :=
  ⟨_, rfl, rfl⟩

/-- V-E7: a fetch at 0xFFF fails at its second byte. -/
theorem test_fetch_last_byte :
    ∃ t, step (State.reset.setPc 0xFFF) = .next t ∧ t.halt = .halted (.outOfBoundsAccess .memory 0x1000 0xFFF) :=
  ⟨_, rfl, rfl⟩

/-- V-E8: a fetch at 0xFFE is the last one that fits. -/
theorem test_fetch_last_word : after 0x6A01 (State.reset.setPc 0xFFE) (fun t => t.reg 0xA == 0x01 && t.pc == 0x1000) = true := by
  decide +kernel

/-- V-K15, V-K16: a tick, and no wrap below 0. -/
theorem test_tick :
    ∃ t, hostCall .tickTimers { State.reset with dt := 0x02, st := 0x00 } = .next t ∧ t.dt = 0x01 ∧ t.st = 0x00 :=
  ⟨_, rfl, rfl, rfl⟩

/-- S2: the bytes lie at 0x200 up, and the font is untouched. -/
theorem test_load :
    ∃ t, hostCall (.load [0x6A, 0x05, 0x12, 0x02]) State.reset = .next t ∧ Memory.byte t.mem 0x200 = 0x6A ∧
      Memory.byte t.mem 0x203 = 0x02 ∧ Memory.byte t.mem 0x204 = 0x00 ∧ Memory.byte t.mem 0x000 = 0xF0 :=
  ⟨_, rfl, by decide +kernel, by decide +kernel, by decide +kernel, by decide +kernel⟩

/-- V-E13: a load of 3585 bytes is refused. -/
theorem test_load_too_long (bytes : List Byte) (h : bytes.length = 3585) :
    hostCall (.load bytes) State.reset = .refused (.loadTooLong 3585) := by
  simp [hostCall, load, loadOrigin, h]

/-! ### Witnesses: a concrete state and operands meet the hypotheses of each statement, at the boundaries of its
clauses -/

/-- Of `EncodeOfDecode`. -/
theorem witness_decodes : decode 0xD12F = .ok (.drw 0x1 0x2 0xF) := rfl

/-- Of both clauses of `DecodeAcceptsExactlyTheTable`. -/
theorem witness_table : legalWord 0x00EE = true ∧ legalWord 0x00EF = false := ⟨rfl, rfl⟩

/-- Of both sides of `IllegalWordsByCategory`. -/
theorem witness_illegal : decode 0x5AB1 = .error (.undecodableOpcode 0x5AB1) ∧ decode 0x5AB0 = .ok (.seReg 0xA 0xB) :=
  ⟨rfl, rfl⟩

/-- Of `StepRunsTheDecodedInstruction`, at the last address where a word fits. -/
theorem witness_step_runs :
    let s := (State.reset.setPc 0xFFE).withFetchWord 16 0x6A05
    s.halt = .running ∧ s.pc.toNat + 1 < 4096 ∧
      (0x6A05 : Word).toNat = (Memory.byte s.mem s.pc.toNat).toNat * 256 + (Memory.byte s.mem (s.pc.toNat + 1)).toNat ∧
      decode 0x6A05 = .ok (.ldImm 0xA 0x05) := by
  refine ⟨rfl, by decide +kernel, by decide +kernel, rfl⟩

/-- Of `StepRunsTheDecodedInstruction` at an odd PC. -/
theorem witness_step_runs_odd :
    let s := (State.reset.setPc 0x201).withFetchWord 16 0x00E0
    s.halt = .running ∧ s.pc = 0x201 ∧
      (0x00E0 : Word).toNat = (Memory.byte s.mem s.pc.toNat).toNat * 256 + (Memory.byte s.mem (s.pc.toNat + 1)).toNat := by
  refine ⟨rfl, rfl, by decide +kernel⟩

/-- Of both clauses of `FetchOutsideMemoryHalts`, where they meet. -/
theorem witness_fetch_outside :
    (State.reset.setPc 0x1000).halt = .running ∧ 4096 ≤ (State.reset.setPc 0x1000).pc.toNat ∧
      (State.reset.setPc 0xFFF).pc.toNat = 4095 := by
  refine ⟨rfl, by decide +kernel, by decide +kernel⟩

/-- Of `IllegalWordHalts`: the state after construction. -/
theorem witness_illegal_word :
    State.reset.halt = .running ∧ State.reset.pc.toNat + 1 < 4096 ∧
      (0x0000 : Word).toNat = (Memory.byte State.reset.mem State.reset.pc.toNat).toNat * 256 +
        (Memory.byte State.reset.mem (State.reset.pc.toNat + 1)).toNat ∧ legalWord 0x0000 = false := by
  refine ⟨rfl, by decide +kernel, by decide +kernel, rfl⟩

/-- A halted core, for the witnesses that need one. -/
def haltedCore : State := { State.reset with halt := .halted (.undecodableOpcode 0x0000 0x200) }

/-- Of `HaltedCoreHasNoStep`. -/
theorem witness_halted : haltedCore.halt = .halted (.undecodableOpcode 0x0000 0x200) := rfl

/-- Of `InstructionsRaiseOnlyTheirErrors`, one for each of its clauses. -/
theorem witness_raises :
    (∃ t e, exec .ret State.reset = .next t ∧ t.halt = .halted e) ∧
    (∃ t e, exec (.call 0x210) { State.reset with sp := 16 } = .next t ∧ t.halt = .halted e) ∧
    (∃ t e, exec (.skp 0x1) (withRegs [(0x1, 0x10)]) = .next t ∧ t.halt = .halted e) ∧
    (∃ t e, exec (.sknp 0x1) (withRegs [(0x1, 0xFF)]) = .next t ∧ t.halt = .halted e) ∧
    (∃ t e, exec (.ldBVx 0x0) (State.reset.setI 0xFFE) = .next t ∧ t.halt = .halted e) :=
  ⟨⟨_, _, rfl, rfl⟩, ⟨_, _, rfl, rfl⟩, ⟨_, _, rfl, rfl⟩, ⟨_, _, rfl, rfl⟩, ⟨_, _, rfl, rfl⟩⟩

/-- The invariant holds of the state after construction with a word placed, and that state steps: of
`StepKeepsTheInvariant`. -/
theorem witness_step_invariant :
    (State.reset.withFetchWord 16 0x6A05).Inv ∧ ∃ t, step (State.reset.withFetchWord 16 0x6A05) = .next t := by
  refine ⟨⟨by decide +kernel, fun _ => ⟨by decide +kernel, by decide +kernel, by decide +kernel⟩⟩, ⟨_, rfl⟩⟩

/-- The invariant at the largest PC it allows. -/
theorem witness_invariant_boundary : (State.reset.setPc 0x10FE).Inv := by
  refine ⟨by decide +kernel, fun _ => ⟨by decide +kernel, by decide +kernel, by decide +kernel⟩⟩

/-- Of `HostCallKeepsTheInvariant`. -/
theorem witness_host_invariant : State.reset.Inv ∧ ∃ t, hostCall (.pressKey 0xF) State.reset = .next t := by
  refine ⟨⟨by decide +kernel, fun _ => ⟨by decide +kernel, by decide +kernel, by decide +kernel⟩⟩, ⟨_, rfl⟩⟩

/-- Of `ReachableStatesHaveTheInvariant`. -/
theorem witness_reachable : Reachable State.reset := ⟨[], rfl⟩

/-- Of `CallPushesTheReturnAddress` and `CallThenReturnComesBack`, with room for one more call. -/
theorem witness_call : ({ State.reset with sp := 15 } : State).sp.val < 16 := by decide +kernel

/-- Of `ReturnPopsTheReturnAddress`, with one entry and with all sixteen in use. -/
theorem witness_return :
    ({ State.reset with sp := 1 } : State).sp.val = (0 : Fin 16).val + 1 ∧
      ({ State.reset with sp := 16 } : State).sp.val = (15 : Fin 16).val + 1 := ⟨rfl, rfl⟩

/-- Of both clauses of `StackOverflowAndUnderflowHalt`. -/
theorem witness_stack_faults : ({ State.reset with sp := 16 } : State).sp.val = 16 ∧ State.reset.sp.val = 0 := ⟨rfl, rfl⟩

/-- Of both clauses of `GlyphAddressOfDigit`, where they meet. -/
theorem witness_glyph :
    ((withRegs [(0x0, 0x0F)]).reg 0x0).toNat < 16 ∧ 16 ≤ ((withRegs [(0x0, 0x10)]).reg 0x0).toNat := by
  refine ⟨by decide +kernel, by decide +kernel⟩

/-- Of `StoreDecimalDigits`, at the last address that fits. -/
theorem witness_digits :
    Memory.wf (State.reset.setI 0xFFD).mem = true ∧ (State.reset.setI 0xFFD).i.toNat + 3 ≤ 4096 := by
  refine ⟨rfl, by decide +kernel⟩

/-- Of `StoreRegistersThroughVx` and `StoreThenLoadRestoresBelowVx`, with x = F at the last address that fits. -/
theorem witness_store :
    Memory.wf (State.reset.setI 0xFF0).mem = true ∧ (State.reset.setI 0xFF0).i.toNat + (0xF : RegIndex).val + 1 ≤ 4096 := by
  refine ⟨rfl, by decide +kernel⟩

/-- Of both cases of `LoadRegistersBelowVx`: x = 0 at an I outside memory, and the last address that fits. -/
theorem witness_load :
    ((0x0 : RegIndex) = 0 ∨ (State.reset.setI 0xFFFF).i.toNat + (0x0 : RegIndex).val ≤ 4096) ∧
      (State.reset.setI 0xFFE).i.toNat + (0x2 : RegIndex).val ≤ 4096 := by
  refine ⟨.inl rfl, by decide +kernel⟩

/-- Of `FirstBadAddressHalts`: each of its instructions, at a first bad offset that is 0 or more. -/
theorem witness_first_bad :
    (AccessesOffset (.drw 0x0 0x1 0x2) 1 ∧ (∀ j < 1, (State.reset.setI 0xFFF).i.toNat + j < 4096) ∧
      4096 ≤ (State.reset.setI 0xFFF).i.toNat + 1) ∧
    (AccessesOffset (.ldBVx 0x0) 2 ∧ (∀ j < 2, (State.reset.setI 0xFFE).i.toNat + j < 4096) ∧
      4096 ≤ (State.reset.setI 0xFFE).i.toNat + 2) ∧
    (AccessesOffset (.ldMemVx 0x0) 0 ∧ (∀ j < 0, (State.reset.setI 0xFFFF).i.toNat + j < 4096) ∧
      4096 ≤ (State.reset.setI 0xFFFF).i.toNat + 0) ∧
    (AccessesOffset (.ldVxMem 0x3) 2 ∧ (∀ j < 2, (State.reset.setI 0xFFE).i.toNat + j < 4096) ∧
      4096 ≤ (State.reset.setI 0xFFE).i.toNat + 2) := by
  refine ⟨⟨?_, ?_, ?_⟩, ⟨?_, ?_, ?_⟩, ⟨?_, ?_, ?_⟩, ⟨?_, ?_, ?_⟩⟩ <;> first
    | (simp only [AccessesOffset]; decide)
    | decide +kernel

/-- Of `FetchSeesStoredBytes`. -/
theorem witness_fetch_stored :
    (0x1 : RegIndex).val = (0x0 : RegIndex).val + 1 ∧ (0x1 : RegIndex).val ≤ (0x1 : RegIndex).val ∧
      Memory.wf (State.reset.setI 0x208).mem = true ∧ (State.reset.setI 0x208).i.toNat + (0x1 : RegIndex).val + 1 ≤ 4096 := by
  refine ⟨rfl, by decide, rfl, by decide +kernel⟩

/-- Of `FetchSeesStoredBytes` at an odd address, with all sixteen registers stored. -/
theorem witness_fetch_stored_odd :
    (0xF : RegIndex).val = (0xE : RegIndex).val + 1 ∧ (0xF : RegIndex).val ≤ (0xF : RegIndex).val ∧
      Memory.wf (State.reset.setI 0xFEF).mem = true ∧ (State.reset.setI 0xFEF).i.toNat + (0xF : RegIndex).val + 1 ≤ 4096 ∧
      ((State.reset.setI 0xFEF).i.toNat + (0xE : RegIndex).val) % 2 = 1 := by
  refine ⟨rfl, by decide, rfl, by decide +kernel, by decide +kernel⟩

/-- Of `DrawFlipsExactlyTheSprite` and `DrawTwiceRestoresTheScreen`: no row at an I outside memory, and fifteen rows at
the last address that fits; some pixel is covered and some is not, and a covered pixel is set. -/
theorem witness_draw :
    ((0x0 : Fin 16) = 0 ∨ (State.reset.setI 0xFFFF).i.toNat + (0x0 : Fin 16).val ≤ 4096) ∧
      ((0xF : Fin 16) = 0 ∨ (State.reset.setI 0xFF1).i.toNat + (0xF : Fin 16).val ≤ 4096) ∧
      (0x0 : RegIndex) ≠ 0xF ∧ (0x1 : RegIndex) ≠ 0xF := by
  refine ⟨.inl rfl, .inr (by decide +kernel), by decide, by decide⟩

theorem witness_sprite_covers : SpriteCovers State.reset 0x0 0x1 0x1 0 0 :=
  ⟨0, 0, by decide, by decide, by decide +kernel, by decide +kernel, by decide +kernel⟩

theorem witness_sprite_not_covers : ¬ SpriteCovers State.reset 0x0 0x1 0x1 0 1 := by
  rintro ⟨r, col, hr, -, -, hy, -⟩
  have hr0 : r = 0 := by simpa using hr
  subst hr0
  exact absurd hy (by decide +kernel)

theorem witness_collision :
    ∃ px py, SpriteCovers (State.reset.setFb (State.reset.fb.flip 0 0)) 0x0 0x1 0x1 px py ∧
      (State.reset.setFb (State.reset.fb.flip 0 0)).fb.pixel px py = true :=
  ⟨0, 0, ⟨0, 0, by decide, by decide, by decide +kernel, by decide +kernel, by decide +kernel⟩, by decide +kernel⟩

/-- Of `KeySkips` at the last key and of `KeyIndexOutOfRangeHalts` at the first number past it. -/
theorem witness_key_skips :
    ((withRegs [(0x1, 0x0F)]).reg 0x1).toNat = (0xF : KeyIndex).val ∧ 16 ≤ ((withRegs [(0x1, 0x10)]).reg 0x1).toNat := by
  refine ⟨by decide +kernel, by decide +kernel⟩

/-- Of `KeyWaitTakesTheLowestKey`. -/
theorem witness_lowest_key :
    let s := (State.reset.setKey 3 1).setKey 7 1
    s.key[(3 : KeyIndex)] ≠ 0 ∧ ∀ j : KeyIndex, j < 3 → s.key[j] = 0 := by
  decide +kernel

/-- Of `KeyWaitWithoutAKeyChangesNothing`. -/
theorem witness_no_key : ∀ k : KeyIndex, State.reset.key[k] = 0 := by decide +kernel

/-- Of `MemoryAndIndexWriters`, `StackWriters`, `DeviceWriters`, `FlagWriters` and `NextPcByClass`. -/
theorem witness_writers :
    State.reset.halt = .running ∧ ∃ t, exec (.ldImm 0x0 0x01) State.reset = .next t ∧ t.halt = .running :=
  ⟨rfl, _, rfl, rfl⟩

/-- Of `NextPcByClass`, one for each of its classes. -/
theorem witness_next_pc :
    (∃ t, exec (.jp 0xFFF) State.reset = .next t ∧ t.halt = .running) ∧
    (∃ t, exec (.jpV0 0xFFF) (withRegs [(0x0, 0xFF)]) = .next t ∧ t.halt = .running) ∧
    (∃ t, exec .ret { State.reset with sp := 1 } = .next t ∧ t.halt = .running) ∧
    (∃ t, exec (.skp 0x1) (withRegs [(0x1, 0x0F)]) = .next t ∧ t.halt = .running) ∧
    (∃ t, exec (.ldVxK 0x1) State.reset = .next t ∧ t.halt = .running) ∧
    (∃ t, exec .cls State.reset = .next t ∧ t.halt = .running) :=
  ⟨⟨_, rfl, rfl⟩, ⟨_, rfl, rfl⟩, ⟨_, rfl, rfl⟩, ⟨_, rfl, rfl⟩, ⟨_, rfl, rfl⟩, ⟨_, rfl, rfl⟩⟩

/-- Of `FlagWriters`: an instruction that writes the flag, and one whose destination is VF. -/
theorem witness_flag_writers :
    (∃ t, exec (.shl 0x0 0x0) (withRegs [(0x0, 0x80)]) = .next t ∧ t.halt = .running) ∧
    (∃ t, exec (.ldImm 0xF 0xFF) State.reset = .next t ∧ t.halt = .running) :=
  ⟨⟨_, rfl, rfl⟩, ⟨_, rfl, rfl⟩⟩

/-- Of both clauses of `LoadCopiesOrRefuses`, where they meet. -/
theorem witness_load_lengths :
    Memory.wf State.reset.mem = true ∧ (List.replicate 3584 (0 : Byte)).length ≤ 3584 ∧
      3584 < (List.replicate 3585 (0 : Byte)).length := by
  refine ⟨rfl, ?_, ?_⟩
  · rw [List.length_replicate]
  · rw [List.length_replicate]; decide

/-- Of `HostReadsTheFramebuffer`. -/
theorem witness_host_reads : HostCall.tickTimers ≠ .construct ∧ ∃ t, hostCall .tickTimers State.reset = .next t :=
  ⟨by decide, _, rfl⟩

/-- Of `HostReadsTheSoundTimer`: a call that is neither a construction nor a tick, with ST not zero. -/
theorem witness_host_reads_sound :
    HostCall.pressKey 0xF ≠ .construct ∧ HostCall.pressKey 0xF ≠ .tickTimers ∧
      ∃ t, hostCall (.pressKey 0xF) (State.reset.setSt 0xFF) = .next t ∧ readSoundTimer t = 0xFF :=
  ⟨by decide, by decide, _, rfl, rfl⟩

/-- Of `OnlyConstructionRestarts`. -/
theorem witness_restart :
    haltedCore.halt = .halted (.undecodableOpcode 0x0000 0x200) ∧ Move.host (.pressKey 0) ≠ .host .construct ∧
      ∃ t, move (.host (.pressKey 0)) haltedCore = .next t :=
  ⟨rfl, by decide, _, rfl⟩

/-- Of both clauses of `IdleAndWaitingStatesStay`. -/
theorem witness_idle : (State.reset.withFetchWord 16 0x1200).Idle :=
  ⟨rfl, 0x200, rfl, rfl⟩

/-- Of `IdleAndWaitingStatesStay` and of `KeyPressEndsTheWait`. -/
theorem witness_waiting :
    (State.reset.withFetchWord 16 0xF30A).Waiting ∧ fetchInstr (State.reset.withFetchWord 16 0xF30A) = .ok (.ldVxK 0x3) :=
  ⟨⟨rfl, ⟨0x3, rfl⟩, by decide +kernel⟩, rfl⟩

end Sys2Proof.Tests
end

/-! PROOFS. The family 20_memory.md: a store through I seen by a fetch. -/

namespace Sys2Proof.Machine

/-- `Fx55` with its x + 1 bytes in memory (43_index_memory.md R204). -/
theorem execLdMemVx_ok (x : RegIndex) {s : State} (h : s.i.toNat + x.val + 1 ≤ 4096) :
    exec (.ldMemVx x) s = .next (s.setMem (Memory.setBytes s.mem s.i.toNat (regsThrough s x))).advance :=
  storeAtIndex_ok (.inr (by rw [length_regsThrough]; omega))

/-- The byte at I + j after V0 to Vx are written from I up is Vj. -/
theorem byte_setBytes_regsThrough {s : State} {x j : RegIndex} (hwf : Memory.wf s.mem = true)
    (h : s.i.toNat + x.val + 1 ≤ 4096) (hj : j.val ≤ x.val) :
    Memory.byte (Memory.setBytes s.mem s.i.toNat (regsThrough s x)) (s.i.toNat + j.val) = s.reg j := by
  have hlen := length_regsThrough s x
  rw [Memory.byte_setBytes_inside hwf _ (by omega) (by omega), getElem_regsThrough]
  rfl

/-- A fetch with PC at `a` reads the two bytes at `a` and `a + 1`, the high byte first, whether `a` is even or odd
(20_memory.md R64, R66; log 7). -/
theorem fetchWord_setPc (s : State) {a : Nat} (h : a + 1 < 4096) :
    fetchWord (s.setPc (BitVec.ofNat 16 a)) = .ok (wordOfBytes (Memory.byte s.mem a) (Memory.byte s.mem (a + 1))) := by
  have hpc : (s.setPc (BitVec.ofNat 16 a)).pc.toNat = a :=
    (BitVec.toNat_ofNat a 16).trans (Nat.mod_eq_of_lt (by omega))
  rw [fetchWord_ok (by omega), hpc, State.setPc_mem]

/-- Settles O35: the two bytes the fetch reads at I + j are the Vj and V(j+1) just written there. -/
theorem fetchSeesStoredBytes : Obligations.FetchSeesStoredBytes := by
  intro x j k s hk hkx hwf hfit
  refine ⟨_, wordOfBytes (s.reg j) (s.reg k), execLdMemVx_ok x hfit, ?_, toNat_wordOfBytes _ _⟩
  have hnext : s.i.toNat + j.val + 1 = s.i.toNat + k.val := by omega
  rw [fetchWord_setPc _ (by omega), hnext, State.advance_mem, State.setMem_mem,
    byte_setBytes_regsThrough hwf hfit (by omega), byte_setBytes_regsThrough hwf hfit hkx]

end Sys2Proof.Machine

/-! PROOFS. The family 41_control.md: the jumps and the compare skips. -/

namespace Sys2Proof

/-! ### Words in the rules' form: the category's word, then the fields (30_encoding.md R91) -/

theorem toNat_encodeAddr_of_category {op : BitVec 4} {c : Nat} (hc : op.toNat * 4096 = c) (nnn : Addr12) :
    (encodeAddr op nnn).toNat = c + nnn.toNat := by
  rw [toNat_encodeAddr, hc]

theorem toNat_encodeXkk_of_category {op : BitVec 4} {c : Nat} (hc : op.toNat * 4096 = c) (x : RegIndex) (kk : Byte) :
    (encodeXkk op x kk).toNat = c + 256 * x.val + kk.toNat := by
  rw [toNat_encodeXkk, hc, Nat.mul_comm x.val]

theorem toNat_encodeXy_of_category {op : BitVec 4} {c : Nat} (hc : op.toNat * 4096 = c) (x y : RegIndex) :
    (encodeXyn op x y 0).toNat = c + 256 * x.val + 16 * y.val := by
  rw [toNat_encodeXyn, hc, Nat.mul_comm x.val, Nat.mul_comm y.val, Fin.val_zero, Nat.add_zero]

end Sys2Proof

namespace Sys2Proof.Machine

/-! ### Jump targets -/

theorem toNat_zextAddr (nnn : Addr12) : (zextAddr nnn).toNat = nnn.toNat :=
  BitVec.toNat_setWidth_of_le (by decide)

theorem toNat_zextByte (b : Byte) : (zextByte b).toNat = b.toNat :=
  BitVec.toNat_setWidth_of_le (by decide)

/-- The target of `Bnnn` needs no wrap: it is at most 0xFFF + 0xFF = 0x10FE (41_control.md R147). -/
theorem toNat_zextAddr_add_zextByte (nnn : Addr12) (b : Byte) :
    (zextAddr nnn + zextByte b).toNat = nnn.toNat + b.toNat := by
  have hfit : nnn.toNat + b.toNat < 2 ^ 16 := by omega
  rw [BitVec.toNat_add, toNat_zextAddr, toNat_zextByte, Nat.mod_eq_of_lt hfit]

/-- Settles O22: both jumps write PC alone, and the two targets are exact sums. -/
theorem jumpsSetPc : Obligations.JumpsSetPc := by
  intro nnn s
  refine ⟨⟨s.setPc (zextAddr nnn), rfl, ?_, rfl⟩, ⟨s.setPc (zextAddr nnn + zextByte (s.reg 0)), rfl, ?_, rfl⟩,
    toNat_encodeAddr_of_category rfl nnn, toNat_encodeAddr_of_category rfl nnn⟩
  · rw [State.setPc_pc, toNat_zextAddr]
  · rw [State.setPc_pc, toNat_zextAddr_add_zextByte]

/-! ### Compare skips -/

/-- A skip on a condition writes PC alone, with the condition as it is stated (41_control.md R143 to R146). -/
theorem State.skipIf_decide (s : State) (p : Prop) [Decidable p] :
    s.skipIf p = { s with pc := if p then s.pc + 4 else s.pc + 2 } := by
  simp only [State.skipIf_eq, decide_eq_true_eq]

/-- Settles O23: each of the four is a skip on its comparison. -/
theorem compareSkips : Obligations.CompareSkips := by
  intro x y kk s
  refine ⟨?seImm, ?sneImm, ?seReg, ?sneReg, toNat_encodeXkk_of_category rfl x kk,
    toNat_encodeXkk_of_category rfl x kk, toNat_encodeXy_of_category rfl x y, toNat_encodeXy_of_category rfl x y⟩
  case seImm => exact congrArg _ (s.skipIf_decide (s.reg x = kk))
  case sneImm => exact congrArg _ (s.skipIf_decide (s.reg x ≠ kk))
  case seReg => exact congrArg _ (s.skipIf_decide (s.reg x = s.reg y))
  case sneReg => exact congrArg _ (s.skipIf_decide (s.reg x ≠ s.reg y))

end Sys2Proof.Machine

/-! PROOFS. The family 42_alu.md: loads, immediate add, and the arithmetic with flags. -/

namespace Sys2Proof

/-- A word of format `XY`: the category and the sub-opcode, then the two register fields (30_encoding.md R91). -/
theorem toNat_encodeXyn_of_subopcode {op : BitVec 4} {n : Fin 16} {c : Nat} (hc : op.toNat * 4096 + n.val = c)
    (x y : RegIndex) : (encodeXyn op x y n).toNat = c + 256 * x.val + 16 * y.val := by
  subst hc
  rw [toNat_encodeXyn]
  omega

end Sys2Proof

namespace Sys2Proof.Machine

/-! ### The two ends of an ALU instruction -/

/-- An instruction that ends by writing one register completes with it, and changes PC besides. -/
theorem writeReg_completes (x : RegIndex) (b : Byte) (s : State) :
    ∃ t, writeReg x b s = .next t ∧ t.reg x = b ∧
      Advanced s t ∧ SameRegsBut s t (· = x) ∧ SameBesidesRegs s t :=
  ⟨(s.setReg x b).advance, rfl, State.reg_setReg_same s x b, advanced_of_pc rfl,
    fun _ hr => State.reg_setReg_ne s hr b, sameBesidesRegs_of rfl⟩

/-- An instruction that ends by writing one register and then the flag completes with both, and changes PC besides;
with x = F the flag stays (40_cycle.md R127). -/
theorem writeRegFlag_completes (x : RegIndex) (b f : Byte) (s : State) :
    ∃ t, writeRegFlag x b f s = .next t ∧ (x ≠ 0xF → t.reg x = b) ∧ t.reg 0xF = f ∧
      Advanced s t ∧ SameRegsBut s t (fun r => r = x ∨ r = 0xF) ∧ SameBesidesRegs s t :=
  ⟨(s.setRegFlag x b f).advance, rfl, fun hx => State.reg_setRegFlag_same s hx b f, State.reg_setRegFlag_F s x b f,
    advanced_of_pc rfl, fun _ hr => State.reg_setRegFlag_ne s (hr ∘ .inl) (hr ∘ .inr) b f, sameBesidesRegs_of rfl⟩

/-! ### Flags and results as numbers -/

theorem carryFlag_eq (a b : Byte) : carryFlag a b = if a.toNat + b.toNat > 255 then 1 else 0 := by
  simp only [carryFlag, flagByte, decide_eq_true_eq]

theorem notBorrowFlag_eq (a b : Byte) : notBorrowFlag a b = if a.toNat > b.toNat then 1 else 0 := by
  simp only [notBorrowFlag, flagByte, decide_eq_true_eq]

theorem toNat_lowBitFlag (a : Byte) : (lowBitFlag a).toNat = a.toNat % 2 :=
  (BitVec.toNat_and a 1).trans (Nat.and_one_is_mod a.toNat)

/-- Bit 7 of a byte is all that is left of it at and above 128. -/
theorem toNat_highBitFlag (a : Byte) : (highBitFlag a).toNat = a.toNat / 128 := by
  have hlow : (highBitFlag a).toNat = (a >>> 7).toNat % 2 := toNat_lowBitFlag (a >>> 7)
  have hshift : (a >>> 7).toNat = a.toNat / 128 := by
    rw [BitVec.toNat_ushiftRight, Nat.shiftRight_eq_div_pow]
  omega

/-- The difference of two bytes wraps: 256 is added before the subtraction, so that it is exact on the naturals. -/
theorem toNat_byte_sub (a b : Byte) : (a - b).toNat = (256 + a.toNat - b.toNat) % 256 := by
  rw [BitVec.toNat_sub]
  omega

theorem toNat_byte_shiftRight_one (a : Byte) : (a >>> 1).toNat = a.toNat / 2 := by
  rw [BitVec.toNat_ushiftRight, Nat.shiftRight_eq_div_pow, Nat.pow_one]

theorem toNat_byte_shiftLeft_one (a : Byte) : (a <<< 1).toNat = 2 * a.toNat % 256 := by
  rw [BitVec.toNat_shiftLeft, Nat.shiftLeft_eq, Nat.pow_one, Nat.mul_comm]

/-! ### The statements -/

/-- Settles O16: each ends by writing Vx alone, and the immediate add is a sum of bytes. -/
theorem loadAddImmediateAndMove : Obligations.LoadAddImmediateAndMove := by
  intro x y kk s
  refine ⟨writeReg_completes x kk s, ?addImm, writeReg_completes x (s.reg y) s, toNat_encodeXkk_of_category rfl x kk,
    toNat_encodeXkk_of_category rfl x kk, toNat_encodeXy_of_category rfl x y⟩
  case addImm =>
    obtain ⟨t, ht, hx, hframe⟩ := writeReg_completes x (s.reg x + kk) s
    exact ⟨t, ht, by rw [hx, BitVec.toNat_add], hframe⟩

/-- Settles O18: the sum of the two bytes and its carry, the flag written last. -/
theorem addWithCarry : Obligations.AddWithCarry := by
  intro x y s
  obtain ⟨t, ht, hx, hflag, hpc, hregs, hrest⟩ :=
    writeRegFlag_completes x (s.reg x + s.reg y) (carryFlag (s.reg x) (s.reg y)) s
  exact ⟨t, ht, fun hxF => by rw [hx hxF, BitVec.toNat_add], by rw [hflag, carryFlag_eq], hpc, hregs, hrest,
    toNat_encodeXyn_of_subopcode rfl x y⟩

/-- A difference and its strict not-borrow, written from any two operands: `8xy5` takes Vx and Vy, `8xy7` takes Vy
and Vx (42_alu.md R177, R179). -/
theorem writeRegFlag_difference (x : RegIndex) (a b : Byte) (s : State) :
    ∃ t, writeRegFlag x (a - b) (notBorrowFlag a b) s = .next t ∧
      (x ≠ 0xF → (t.reg x).toNat = (256 + a.toNat - b.toNat) % 256) ∧
      t.reg 0xF = (if a.toNat > b.toNat then 1 else 0) ∧
      Advanced s t ∧ SameRegsBut s t (fun r => r = x ∨ r = 0xF) ∧ SameBesidesRegs s t := by
  obtain ⟨t, ht, hx, hflag, hframe⟩ := writeRegFlag_completes x (a - b) (notBorrowFlag a b) s
  exact ⟨t, ht, fun hxF => by rw [hx hxF, toNat_byte_sub], by rw [hflag, notBorrowFlag_eq], hframe⟩

/-- Settles O19: both are a difference with its strict not-borrow, the operands in either order. -/
theorem subtractWithStrictNotBorrow : Obligations.SubtractWithStrictNotBorrow := fun x y s =>
  ⟨writeRegFlag_difference x (s.reg x) (s.reg y) s, writeRegFlag_difference x (s.reg y) (s.reg x) s,
    toNat_encodeXyn_of_subopcode rfl x y, toNat_encodeXyn_of_subopcode rfl x y⟩

/-- Settles O20: the shifted byte and the bit it loses, from Vx alone. -/
theorem shiftsMoveTheBitIntoVF : Obligations.ShiftsMoveTheBitIntoVF := by
  intro x y s
  refine ⟨?shr, ?shl, toNat_encodeXyn_of_subopcode rfl x y, toNat_encodeXyn_of_subopcode rfl x y⟩
  case shr =>
    obtain ⟨t, ht, hx, hflag, hframe⟩ := writeRegFlag_completes x (s.reg x >>> 1) (lowBitFlag (s.reg x)) s
    exact ⟨t, ht, fun hxF => by rw [hx hxF, toNat_byte_shiftRight_one], by rw [hflag, toNat_lowBitFlag], hframe⟩
  case shl =>
    obtain ⟨t, ht, hx, hflag, hframe⟩ := writeRegFlag_completes x (s.reg x <<< 1) (highBitFlag (s.reg x)) s
    exact ⟨t, ht, fun hxF => by rw [hx hxF, toNat_byte_shiftLeft_one], by rw [hflag, toNat_highBitFlag], hframe⟩

end Sys2Proof.Machine

/-! PROOFS. The family 43_index_memory.md: setting I and adding to it. -/

namespace Sys2Proof

/-- A word of format `XSUB`: the category and the low byte are fixed, the register field lies between them
(30_encoding.md R91). -/
theorem toNat_encodeXkk_of_subopcode {op : BitVec 4} {sub : Byte} {c : Nat} (hc : op.toNat * 4096 + sub.toNat = c)
    (x : RegIndex) : (encodeXkk op x sub).toNat = c + 256 * x.val := by
  rw [toNat_encodeXkk_of_category rfl, Nat.add_right_comm, hc]

end Sys2Proof

namespace Sys2Proof.Machine

/-- An instruction that ends by writing I leaves everything but I and PC. -/
theorem advance_setI_frame (s : State) (w : Word) :
    Advanced s (s.setI w).advance ∧
      (s.setI w).advance = { s with i := (s.setI w).advance.i, pc := (s.setI w).advance.pc } :=
  ⟨advanced_of_pc rfl, rfl⟩

/-- I plus a byte wraps at 16 bits, not at 12 (43_index_memory.md R201). -/
theorem toNat_add_zextByte (w : Word) (b : Byte) : (w + zextByte b).toNat = (w.toNat + b.toNat) % 65536 := by
  rw [BitVec.toNat_add, toNat_zextByte]

/-- Settles O28: both end by writing I, one the address in the word and one a sum of words. -/
theorem setAndAddIndex : Obligations.SetAndAddIndex := by
  intro nnn x s
  refine ⟨?ldI, ?addIVx, toNat_encodeAddr_of_category rfl nnn, toNat_encodeXkk_of_subopcode rfl x⟩
  case ldI => exact ⟨_, rfl, toNat_zextAddr nnn, advance_setI_frame s (zextAddr nnn)⟩
  case addIVx =>
    exact ⟨_, rfl, toNat_add_zextByte s.i (s.reg x), advance_setI_frame s (s.i + zextByte (s.reg x))⟩

end Sys2Proof.Machine

/-! PROOFS. The family 44_display.md: clearing the screen. -/

namespace Sys2Proof.Machine

/-- Every pixel of a framebuffer filled with one value has that value (44_display.md R232). -/
theorem Framebuffer.pixel_replicate (b : Bool) (px : Column) (py : Row) :
    Framebuffer.pixel (Vector.replicate 2048 b) px py = b :=
  Vector.getElem_replicate (pixelIndex px py).isLt

/-- Settles O36: it writes the filled framebuffer and PC, whatever the pixels were. -/
theorem clearScreen : Obligations.ClearScreen := by
  intro s
  refine ⟨(s.setFb (Vector.replicate 2048 false)).advance, rfl, Framebuffer.pixel_replicate false,
    advanced_of_pc rfl, ?memory, rfl, rfl, ?stack, ?timers, rfl, rfl, rfl⟩
  case memory => exact fun _ => rfl
  case stack => exact ⟨rfl, rfl⟩
  case timers => exact ⟨rfl, rfl⟩

end Sys2Proof.Machine

/-! PROOFS. The family 45_keypad_timers.md: the transfers between Vx and the timers. -/

namespace Sys2Proof.Machine

/-- Settles O43: `Fx07` ends by writing one register, and each of the other two writes its timer and PC. -/
theorem timerTransfers : Obligations.TimerTransfers := by
  intro x s
  exact ⟨writeReg_completes x s.dt s, rfl, rfl, toNat_encodeXkk_of_subopcode rfl x,
    toNat_encodeXkk_of_subopcode rfl x, toNat_encodeXkk_of_subopcode rfl x⟩

end Sys2Proof.Machine

/-! PROOFS. The family 60_exceptions.md: the host's read of the framebuffer. -/

namespace Sys2Proof.Machine

/-- A load that completes had room for its bytes, and writes them to memory alone (70_reset_and_hazards.md R325, R326). -/
theorem load_next {bytes : List Byte} {s t : State} (h : load bytes s = .next t) :
    loadOrigin + bytes.length ≤ Config.memSize ∧ t = s.setMem (Memory.setBytes s.mem loadOrigin bytes) := by
  unfold load at h
  split at h
  case isTrue hfit => cases h; exact ⟨hfit, rfl⟩
  case isFalse => cases h

/-- No host call but the construction of a new core writes the framebuffer (60_exceptions.md R299). -/
theorem hostCall_fb {c : HostCall} {s t : State} (hc : c ≠ .construct) (h : hostCall c s = .next t) : t.fb = s.fb := by
  cases c with
  | construct => exact absurd rfl hc
  | load bytes =>
    obtain ⟨-, rfl⟩ := load_next h
    exact State.setMem_fb s _
  | pressKey k => cases h; exact State.setKey_fb s k 1
  | releaseKey k => cases h; exact State.setKey_fb s k 0
  | readFramebuffer => cases h; rfl
  | readSoundTimer => cases h; rfl
  | tickTimers => cases h; rw [State.setSt_fb, State.setDt_fb]

/-- Settles O52: the read gives back the state it was given, and the pixel read is the framebuffer's cell at the
pixel's index. -/
theorem hostReadsTheFramebuffer : Obligations.HostReadsTheFramebuffer := fun _ =>
  ⟨rfl, fun _ _ => rfl, fun _ _ hc h => hostCall_fb hc h⟩

end Sys2Proof.Machine

/-! PROOFS. The family 30_encoding.md: the two round trips of decoder and encoder, the words the decoder accepts, and
the words it refuses. -/

namespace Sys2Proof

/-! ### From the word of an instruction to the instruction -/

/-- Settles O1: the category of an encoded word selects the decoder's arm, and every field the arm reads is the operand
the encoder wrote. -/
theorem decodeOfEncode : Obligations.DecodeOfEncode := by
  intro i
  cases i with
  | cls | ret => rfl
  | jp nnn | call nnn | ldI nnn | jpV0 nnn =>
    simp [encode, decode, opField_encodeAddr, nnnField_encodeAddr]
  | seImm x kk | sneImm x kk | ldImm x kk | addImm x kk | rnd x kk =>
    simp [encode, decode, opField_encodeXkk, xField_encodeXkk, kkField_encodeXkk]
  | seReg x y | sneReg x y | drw x y n =>
    simp [encode, decode, opField_encodeXyn, xField_encodeXyn, yField_encodeXyn, nField_encodeXyn]
  | ldReg x y | orReg x y | andReg x y | xorReg x y | addReg x y | sub x y | shr x y | subn x y | shl x y =>
    simp [encode, decode, decodeCategory8, opField_encodeXyn, xField_encodeXyn, yField_encodeXyn, nField_encodeXyn]
  | skp x | sknp x =>
    simp [encode, decode, decodeCategoryE, opField_encodeXkk, xField_encodeXkk, kkField_encodeXkk]
  | ldVxDt x | ldVxK x | ldDtVx x | ldStVx x | addIVx x | ldFVx x | ldBVx x | ldMemVx x | ldVxMem x =>
    simp [encode, decode, decodeCategoryF, opField_encodeXkk, xField_encodeXkk, kkField_encodeXkk]

/-! ### A word is its fields: the formats of 30_encoding.md R91 read backwards -/

section
variable {w : Word} {op : BitVec 4}

/-- Format `ADDR`. -/
theorem encodeAddr_fields (hop : (opField w).val = op.toNat) : encodeAddr op (nnnField w) = w := by
  apply BitVec.eq_of_toNat_eq
  rw [val_opField] at hop
  rw [toNat_encodeAddr, toNat_nnnField]
  omega

/-- Formats `XKK` and `XSUB`, the low byte given by its value. -/
theorem encodeXkk_fields {kk : Byte} (hop : (opField w).val = op.toNat) (hkk : (kkField w).toNat = kk.toNat) :
    encodeXkk op (xField w) kk = w := by
  apply BitVec.eq_of_toNat_eq
  rw [val_opField] at hop
  rw [toNat_kkField] at hkk
  rw [toNat_encodeXkk, val_xField]
  omega

/-- Formats `XYN` and `XY`, the low nibble given by its value. -/
theorem encodeXyn_fields {n : Fin 16} (hop : (opField w).val = op.toNat) (hn : (nField w).val = n.val) :
    encodeXyn op (xField w) (yField w) n = w := by
  apply BitVec.eq_of_toNat_eq
  rw [val_opField] at hop
  rw [val_nField] at hn
  rw [toNat_encodeXyn, val_xField, val_yField]
  omega

end

/-! ### From a word that decodes to the word of the instruction -/

theorem encode_of_decodeCategory8 {w : Word} {i : Instr} (hop : (opField w).val = 0x8)
    (h : decodeCategory8 w = .ok i) : encode i = w := by
  unfold decodeCategory8 at h
  split at h <;> cases h <;> exact encodeXyn_fields hop ‹_›

theorem encode_of_decodeCategoryE {w : Word} {i : Instr} (hop : (opField w).val = 0xE)
    (h : decodeCategoryE w = .ok i) : encode i = w := by
  unfold decodeCategoryE at h
  split at h <;> cases h <;> exact encodeXkk_fields hop ‹_›

theorem encode_of_decodeCategoryF {w : Word} {i : Instr} (hop : (opField w).val = 0xF)
    (h : decodeCategoryF w = .ok i) : encode i = w := by
  unfold decodeCategoryF at h
  split at h <;> cases h <;> exact encodeXkk_fields hop ‹_›

/-- Settles O2: each arm of the decoder fixes the category, and where it fixes a sub-opcode the encoder writes the same;
the operands are the fields of the word. -/
theorem encodeOfDecode : Obligations.EncodeOfDecode := by
  intro w i h
  unfold decode at h
  split at h
  -- 00E0, then 00EE; every other word of category 0 is refused
  case h_1 =>
    split at h
    case isTrue hw => cases h; exact hw.symm
    case isFalse =>
      split at h
      case isTrue hw => cases h; exact hw.symm
      case isFalse => cases h
  -- 5xy0 and 9xy0
  case h_6 hop | h_10 hop =>
    split at h
    case isTrue hn => cases h; exact encodeXyn_fields hop (congrArg Fin.val hn)
    case isFalse => cases h
  -- the categories with a decoder of their own, and Dxyn between them
  case h_9 hop => exact encode_of_decodeCategory8 hop h
  case h_14 hop => cases h; exact encodeXyn_fields hop rfl
  case h_15 hop => exact encode_of_decodeCategoryE hop h
  case h_16 =>
    have hop : (opField w).val = 0xF := by
      simp only [imp_false] at *
      omega
    exact encode_of_decodeCategoryF hop h
  -- the formats ADDR and XKK
  case h_2 hop | h_3 hop | h_11 hop | h_12 hop => cases h; exact encodeAddr_fields hop
  all_goals cases h; exact encodeXkk_fields ‹_› rfl

/-! ### The words the decoder accepts -/

/-- The opcode table holds the row of every instruction. -/
theorem row_mem_opcodeTable (i : Instr) : i.row ∈ opcodeTable := by
  simp only [opcodeTable, List.mem_append, List.mem_cons]
  cases i <;> simp only [Instr.row, true_or, or_true]

/-- The opcode table holds no row but those of instructions. -/
theorem exists_row_eq_of_mem {r : TableRow} (h : r ∈ opcodeTable) : ∃ i : Instr, i.row = r := by
  revert r
  simp [opcodeTable]

/-! What the fixed bits of a row say about a word: the laws of `Laws.FixedBits` read backwards. -/

section
variable {w v : Word} {op : BitVec 4}

/-- A row that fixes the category. -/
theorem opField_of_and_F000 (h : w &&& (0xF000 : Word) = v) (hv : v.toNat = op.toNat * 4096) :
    (opField w).val = op.toNat := by
  have hw := Laws.FixedBits.toNat_and_F000 w
  rw [h] at hw
  rw [val_opField]
  omega

/-- A row that fixes the category and the low nibble. -/
theorem encodeXyn_of_and_F00F {n : Fin 16} (h : w &&& (0xF00F : Word) = v) (hv : v.toNat = op.toNat * 4096 + n.val) :
    encodeXyn op (xField w) (yField w) n = w := by
  have hw := Laws.FixedBits.toNat_and_F00F w
  rw [h] at hw
  apply encodeXyn_fields
  · rw [val_opField]; omega
  · rw [val_nField]; omega

/-- A row that fixes the category and the low byte. -/
theorem encodeXkk_of_and_F0FF {kk : Byte} (h : w &&& (0xF0FF : Word) = v)
    (hv : v.toNat = op.toNat * 4096 + kk.toNat) : encodeXkk op (xField w) kk = w := by
  have hw := Laws.FixedBits.toNat_and_F0FF w
  rw [h] at hw
  apply encodeXkk_fields
  · rw [val_opField]; omega
  · rw [toNat_kkField]; omega

end

/-- A word that the row of an instruction covers is the word of an instruction of that row, with the word's fields as
operands. -/
theorem exists_encode_of_covers (i : Instr) {w : Word} (hcov : i.row.covers w = true) : ∃ j : Instr, encode j = w := by
  have h : w &&& i.row.mask = i.row.value := of_decide_eq_true hcov
  cases i with
  | cls => exact ⟨.cls, h.symm.trans (BitVec.and_allOnes (x := w))⟩
  | ret => exact ⟨.ret, h.symm.trans (BitVec.and_allOnes (x := w))⟩
  | jp _ => exact ⟨.jp (nnnField w), encodeAddr_fields (opField_of_and_F000 h rfl)⟩
  | call _ => exact ⟨.call (nnnField w), encodeAddr_fields (opField_of_and_F000 h rfl)⟩
  | seImm _ _ => exact ⟨.seImm (xField w) (kkField w), encodeXkk_fields (opField_of_and_F000 h rfl) rfl⟩
  | sneImm _ _ => exact ⟨.sneImm (xField w) (kkField w), encodeXkk_fields (opField_of_and_F000 h rfl) rfl⟩
  | seReg _ _ => exact ⟨.seReg (xField w) (yField w), encodeXyn_of_and_F00F h rfl⟩
  | ldImm _ _ => exact ⟨.ldImm (xField w) (kkField w), encodeXkk_fields (opField_of_and_F000 h rfl) rfl⟩
  | addImm _ _ => exact ⟨.addImm (xField w) (kkField w), encodeXkk_fields (opField_of_and_F000 h rfl) rfl⟩
  | ldReg _ _ => exact ⟨.ldReg (xField w) (yField w), encodeXyn_of_and_F00F h rfl⟩
  | orReg _ _ => exact ⟨.orReg (xField w) (yField w), encodeXyn_of_and_F00F h rfl⟩
  | andReg _ _ => exact ⟨.andReg (xField w) (yField w), encodeXyn_of_and_F00F h rfl⟩
  | xorReg _ _ => exact ⟨.xorReg (xField w) (yField w), encodeXyn_of_and_F00F h rfl⟩
  | addReg _ _ => exact ⟨.addReg (xField w) (yField w), encodeXyn_of_and_F00F h rfl⟩
  | sub _ _ => exact ⟨.sub (xField w) (yField w), encodeXyn_of_and_F00F h rfl⟩
  | shr _ _ => exact ⟨.shr (xField w) (yField w), encodeXyn_of_and_F00F h rfl⟩
  | subn _ _ => exact ⟨.subn (xField w) (yField w), encodeXyn_of_and_F00F h rfl⟩
  | shl _ _ => exact ⟨.shl (xField w) (yField w), encodeXyn_of_and_F00F h rfl⟩
  | sneReg _ _ => exact ⟨.sneReg (xField w) (yField w), encodeXyn_of_and_F00F h rfl⟩
  | ldI _ => exact ⟨.ldI (nnnField w), encodeAddr_fields (opField_of_and_F000 h rfl)⟩
  | jpV0 _ => exact ⟨.jpV0 (nnnField w), encodeAddr_fields (opField_of_and_F000 h rfl)⟩
  | rnd _ _ => exact ⟨.rnd (xField w) (kkField w), encodeXkk_fields (opField_of_and_F000 h rfl) rfl⟩
  | drw _ _ _ => exact ⟨.drw (xField w) (yField w) (nField w), encodeXyn_fields (opField_of_and_F000 h rfl) rfl⟩
  | skp _ => exact ⟨.skp (xField w), encodeXkk_of_and_F0FF h rfl⟩
  | sknp _ => exact ⟨.sknp (xField w), encodeXkk_of_and_F0FF h rfl⟩
  | ldVxDt _ => exact ⟨.ldVxDt (xField w), encodeXkk_of_and_F0FF h rfl⟩
  | ldVxK _ => exact ⟨.ldVxK (xField w), encodeXkk_of_and_F0FF h rfl⟩
  | ldDtVx _ => exact ⟨.ldDtVx (xField w), encodeXkk_of_and_F0FF h rfl⟩
  | ldStVx _ => exact ⟨.ldStVx (xField w), encodeXkk_of_and_F0FF h rfl⟩
  | addIVx _ => exact ⟨.addIVx (xField w), encodeXkk_of_and_F0FF h rfl⟩
  | ldFVx _ => exact ⟨.ldFVx (xField w), encodeXkk_of_and_F0FF h rfl⟩
  | ldBVx _ => exact ⟨.ldBVx (xField w), encodeXkk_of_and_F0FF h rfl⟩
  | ldMemVx _ => exact ⟨.ldMemVx (xField w), encodeXkk_of_and_F0FF h rfl⟩
  | ldVxMem _ => exact ⟨.ldVxMem (xField w), encodeXkk_of_and_F0FF h rfl⟩

/-- The word of an instruction is covered by the instruction's own row. -/
theorem row_covers_encode : ∀ i : Instr, i.row.covers (encode i) = true
  | .cls => Laws.FixedBits.cls
  | .ret => Laws.FixedBits.ret
  | .jp nnn => Laws.FixedBits.jp nnn
  | .call nnn => Laws.FixedBits.call nnn
  | .seImm x kk => Laws.FixedBits.seImm x kk
  | .sneImm x kk => Laws.FixedBits.sneImm x kk
  | .seReg x y => Laws.FixedBits.seReg x y
  | .ldImm x kk => Laws.FixedBits.ldImm x kk
  | .addImm x kk => Laws.FixedBits.addImm x kk
  | .ldReg x y => Laws.FixedBits.ldReg x y
  | .orReg x y => Laws.FixedBits.orReg x y
  | .andReg x y => Laws.FixedBits.andReg x y
  | .xorReg x y => Laws.FixedBits.xorReg x y
  | .addReg x y => Laws.FixedBits.addReg x y
  | .sub x y => Laws.FixedBits.sub x y
  | .shr x y => Laws.FixedBits.shr x y
  | .subn x y => Laws.FixedBits.subn x y
  | .shl x y => Laws.FixedBits.shl x y
  | .sneReg x y => Laws.FixedBits.sneReg x y
  | .ldI nnn => Laws.FixedBits.ldI nnn
  | .jpV0 nnn => Laws.FixedBits.jpV0 nnn
  | .rnd x kk => Laws.FixedBits.rnd x kk
  | .drw x y n => Laws.FixedBits.drw x y n
  | .skp x => Laws.FixedBits.skp x
  | .sknp x => Laws.FixedBits.sknp x
  | .ldVxDt x => Laws.FixedBits.ldVxDt x
  | .ldVxK x => Laws.FixedBits.ldVxK x
  | .ldDtVx x => Laws.FixedBits.ldDtVx x
  | .ldStVx x => Laws.FixedBits.ldStVx x
  | .addIVx x => Laws.FixedBits.addIVx x
  | .ldFVx x => Laws.FixedBits.ldFVx x
  | .ldBVx x => Laws.FixedBits.ldBVx x
  | .ldMemVx x => Laws.FixedBits.ldMemVx x
  | .ldVxMem x => Laws.FixedBits.ldVxMem x

/-- The opcode table covers exactly the words of the instructions. -/
theorem legalWord_iff (w : Word) : legalWord w = true ↔ ∃ i : Instr, encode i = w := by
  rw [legalWord, List.any_eq_true]
  constructor
  · rintro ⟨r, hr, hcov⟩
    obtain ⟨i, rfl⟩ := exists_row_eq_of_mem hr
    exact exists_encode_of_covers i hcov
  · rintro ⟨i, rfl⟩
    exact ⟨i.row, row_mem_opcodeTable i, row_covers_encode i⟩

/-- A refusal names the word refused (30_encoding.md R95). -/
theorem decode_error {w : Word} {e : DecodeError} (h : decode w = .error e) : e = .undecodableOpcode w := by
  unfold decode decodeCategory8 decodeCategoryE decodeCategoryF at h
  repeat' split at h
  all_goals cases h <;> rfl

/-- Settles O3: a covered word is the word of an instruction, which decodes to that instruction; a word that decodes is
covered, so an uncovered one is refused. -/
theorem decodeAcceptsExactlyTheTable : Obligations.DecodeAcceptsExactlyTheTable := by
  intro w
  constructor
  · intro hlegal
    obtain ⟨i, rfl⟩ := (legalWord_iff w).mp hlegal
    exact ⟨i, decodeOfEncode i, row_covers_encode i⟩
  · intro hillegal
    cases hdec : decode w with
    | ok i =>
      have hlegal := (legalWord_iff w).mpr ⟨i, encodeOfDecode w i hdec⟩
      rw [hillegal] at hlegal
      cases hlegal
    | error e => rw [decode_error hdec]

/-! ### The words the decoder refuses, by category -/

theorem decodeCategory8_error_iff (w : Word) :
    decodeCategory8 w = .error (.undecodableOpcode w) ↔ w.toNat % 16 ∈ [0x8, 0x9, 0xA, 0xB, 0xC, 0xD, 0xF] := by
  unfold decodeCategory8
  rw [val_nField]
  split <;> simp_all
  omega

theorem decodeCategoryE_error_iff (w : Word) :
    decodeCategoryE w = .error (.undecodableOpcode w) ↔ w.toNat % 256 ∉ [0x9E, 0xA1] := by
  unfold decodeCategoryE
  rw [toNat_kkField]
  split <;> simp_all

theorem decodeCategoryF_error_iff (w : Word) :
    decodeCategoryF w = .error (.undecodableOpcode w) ↔
      w.toNat % 256 ∉ [0x07, 0x0A, 0x15, 0x18, 0x1E, 0x29, 0x33, 0x55, 0x65] := by
  unfold decodeCategoryF
  rw [toNat_kkField]
  split <;> simp_all

/-- Settles O4: in each category the decoder refuses by the value of the same field that the table of R96 names, and the
ten categories it names no field of are accepted whole. -/
theorem illegalWordsByCategory : Obligations.IllegalWordsByCategory := by
  intro w
  have hn : nField w = 0 ↔ w.toNat % 16 = 0 := by rw [← val_nField, Fin.ext_iff]; rfl
  unfold decode
  rw [val_opField]
  split
  -- 00E0 and 00EE
  case h_1 hop =>
    have hcls : w = 0x00E0 ↔ w.toNat = 0x00E0 := BitVec.toNat_inj.symm
    have hret : w = 0x00EE ↔ w.toNat = 0x00EE := BitVec.toNat_inj.symm
    split
    · simp_all
    · split <;> simp_all
  -- 5xy0 and 9xy0
  case h_6 hop | h_10 hop => split <;> simp_all
  -- the categories with a decoder of their own
  case h_9 hop => simp [hop, decodeCategory8_error_iff]
  case h_15 hop => simp [hop, decodeCategoryE_error_iff]
  case h_16 =>
    have hop : w.toNat / 4096 = 0xF := by
      simp only [imp_false] at *
      omega
    simp [hop, decodeCategoryF_error_iff]
  -- the categories that are accepted whole
  all_goals simp [*]

/-- Settles O5: the decoder computes each of the eight. -/
theorem sampleWordsDecode : Obligations.SampleWordsDecode :=
  ⟨rfl, rfl, rfl, rfl, rfl, rfl, rfl, rfl⟩

end Sys2Proof

/-! PROOFS. The family 40_cycle.md: fetch and step, and the core that has no step. -/

namespace Sys2Proof.Machine

/-! ### The word at PC -/

/-- The fetched word as a number: the byte at PC is its high byte (20_memory.md R64). -/
theorem fetchWord_of_toNat {s : State} {w : Word} (hpc : s.pc.toNat + 1 < 4096)
    (hw : w.toNat = (Memory.byte s.mem s.pc.toNat).toNat * 256 + (Memory.byte s.mem (s.pc.toNat + 1)).toNat) :
    fetchWord s = .ok w := by
  rw [← toNat_wordOfBytes] at hw
  rw [fetchWord_ok hpc, BitVec.eq_of_toNat_eq hw]

theorem fetchInstr_of_decode {s : State} {w : Word} {i : Instr} (hf : fetchWord s = .ok w) (hd : decode w = .ok i) :
    fetchInstr s = .ok i := by
  simp only [fetchInstr, hf, decodeFetched, hd]

theorem fetchInstr_of_decode_error {s : State} {w : Word} {e : DecodeError} (hf : fetchWord s = .ok w)
    (hd : decode w = .error e) : fetchInstr s = .error (.undecodableOpcode w s.pc) := by
  simp only [fetchInstr, hf, decodeFetched, hd]

theorem fetchInstr_of_fetch_error {s : State} {e : Fault} (hf : fetchWord s = .error e) : fetchInstr s = .error e := by
  simp only [fetchInstr, hf]

/-- A running core that cannot fetch and decode takes the error (40_cycle.md R121, R122). -/
theorem halts_step {s : State} {e : Fault} (hrun : s.halt = .running) (hf : fetchInstr s = .error e) :
    Halts (step s) e := by
  rw [step_of_fetch_error hrun hf]
  exact halts_raise e s

/-- Settles O6: the word is the one fetched, so its instruction is the one that runs. -/
theorem stepRunsTheDecodedInstruction : Obligations.StepRunsTheDecodedInstruction := by
  intro s w i hrun hpc hw hdec
  exact step_of_fetch_ok hrun (fetchInstr_of_decode (fetchWord_of_toNat hpc hw) hdec)

/-- Settles O7: the first of the two bytes outside memory is the one reported. -/
theorem fetchOutsideMemoryHalts : Obligations.FetchOutsideMemoryHalts := by
  intro s hrun
  constructor
  · intro hpc
    exact halts_step hrun (fetchInstr_of_fetch_error (fetchWord_error hpc))
  · intro hpc
    exact halts_step hrun (fetchInstr_of_fetch_error (fetchWord_error_second hpc))

/-- Settles O8: the fetch gives the word, and the decoder refuses what the table does not cover. -/
theorem illegalWordHalts : Obligations.IllegalWordHalts := by
  intro s w hrun hpc hw hillegal
  have hdec := (decodeAcceptsExactlyTheTable w).2 hillegal
  exact halts_step hrun (fetchInstr_of_decode_error (fetchWord_of_toNat hpc hw) hdec)

/-- Settles O9: a step looks at HALT before it fetches. -/
theorem haltedCoreHasNoStep : Obligations.HaltedCoreHasNoStep := fun _ _ => step_halted

end Sys2Proof.Machine

/-! PROOFS. What an instruction can do, once for all instructions: the two outcomes of each operation that can raise an
error, the errors an instruction raises, and the fields it may change when it completes. -/

namespace Sys2Proof.Machine

/-! ### The two outcomes of each operation that can raise an error -/

section
variable {s t : State}

theorem execRet_next (h : execRet s = .next t) :
    (∃ j : Fin 16, s.sp.val = j.val + 1 ∧ t = { s with sp := ⟨j.val, by omega⟩, pc := s.stack[j] }) ∨
      (s.sp.val = 0 ∧ t = takeFatal (.outOfBoundsAccess .stackUnderflow 0 s.pc) s) := by
  by_cases hsp : s.sp.val = 0
  · rw [execRet_error hsp] at h
    cases h
    exact .inr ⟨hsp, rfl⟩
  · have hj : s.sp.val = (⟨s.sp.val - 1, by omega⟩ : Fin 16).val + 1 := by simp only; omega
    rw [execRet_ok _ hj] at h
    cases h
    exact .inl ⟨_, hj, rfl⟩

theorem execCall_next {nnn : Addr12} (h : execCall nnn s = .next t) :
    (∃ hsp : s.sp.val < 16, t = { s with
      stack := s.stack.set s.sp.val (s.pc + 2) hsp, sp := ⟨s.sp.val + 1, by omega⟩, pc := zextAddr nnn }) ∨
      (s.sp.val = 16 ∧ t = takeFatal (.outOfBoundsAccess .stackOverflow 16 s.pc) s) := by
  by_cases hsp : s.sp.val < 16
  · rw [execCall_ok nnn hsp] at h
    cases h
    exact .inl ⟨hsp, rfl⟩
  · have hfull : s.sp.val = 16 := by omega
    rw [execCall_error nnn hfull] at h
    cases h
    exact .inr ⟨hfull, rfl⟩

theorem skipOnKey_next {k : Byte} {want : Bool} (h : skipOnKey k want s = .next t) :
    (∃ c : Bool, t = s.skipIf c) ∨
      (16 ≤ k.toNat ∧ t = takeFatal (.outOfBoundsAccess .keypad k.toNat s.pc) s) := by
  by_cases hk : k.toNat < 16
  · rw [skipOnKey_ok want hk] at h
    cases h
    exact .inl ⟨_, rfl⟩
  · rw [skipOnKey_error want (Nat.not_lt.mp hk)] at h
    cases h
    exact .inr ⟨Nat.not_lt.mp hk, rfl⟩

theorem execDrw_next {x y n : Fin 16} (h : execDrw x y n s = .next t) :
    (∃ (fb : Framebuffer) (flag : Byte), t = ((s.setFb fb).setReg flagReg flag).advance) ∨
      (∃ k < n.val, 4096 ≤ s.i.toNat + k ∧ t = takeFatal (.outOfBoundsAccess .memory (s.i.toNat + k) s.pc) s) := by
  by_cases hfit : n.val = 0 ∨ s.i.toNat + n.val ≤ 4096
  · rw [execDrw_ok x y n hfit] at h
    cases h
    exact .inl ⟨_, _, rfl⟩
  · obtain ⟨k, hk, hok, hbad⟩ := exists_first_bad hfit
    rw [execDrw_error x y n hk hok hbad] at h
    cases h
    exact .inr ⟨k, hk, hbad, rfl⟩

theorem storeAtIndex_next {bs : List Byte} (h : storeAtIndex bs s = .next t) :
    ((bs.length = 0 ∨ s.i.toNat + bs.length ≤ 4096) ∧
      t = (s.setMem (Memory.setBytes s.mem s.i.toNat bs)).advance) ∨
      (∃ k < bs.length, 4096 ≤ s.i.toNat + k ∧
        t = takeFatal (.outOfBoundsAccess .memory (s.i.toNat + k) s.pc) s) := by
  by_cases hfit : bs.length = 0 ∨ s.i.toNat + bs.length ≤ 4096
  · rw [storeAtIndex_ok (hfit.imp_left List.length_eq_zero_iff.mp)] at h
    cases h
    exact .inl ⟨hfit, rfl⟩
  · obtain ⟨k, hk, hok, hbad⟩ := exists_first_bad hfit
    rw [storeAtIndex_error hk hok hbad] at h
    cases h
    exact .inr ⟨k, hk, hbad, rfl⟩

theorem loadFromIndex_next {n : Nat} (h : loadFromIndex n s = .next t) :
    (∃ bs : List Byte, bs.length = n ∧ t = (s.setRegs bs).advance) ∨
      (∃ k < n, 4096 ≤ s.i.toNat + k ∧ t = takeFatal (.outOfBoundsAccess .memory (s.i.toNat + k) s.pc) s) := by
  by_cases hfit : n = 0 ∨ s.i.toNat + n ≤ 4096
  · rw [loadFromIndex_ok hfit] at h
    cases h
    exact .inl ⟨_, List.length_ofFn, rfl⟩
  · obtain ⟨k, hk, hok, hbad⟩ := exists_first_bad hfit
    rw [loadFromIndex_error hk hok hbad] at h
    cases h
    exact .inr ⟨k, hk, hbad, rfl⟩

/-- `Fx0A` waits, or writes one register (45_keypad_timers.md R252). -/
theorem execLdVxK_next {x : RegIndex} (h : execLdVxK x s = .next t) :
    t = s ∨ ∃ b : Byte, t = (s.setReg x b).advance := by
  unfold execLdVxK at h
  split at h
  · cases h; exact .inl rfl
  · cases h; exact .inr ⟨_, rfl⟩

end

/-- `Fx29` writes I in both of its cases; for Vx of 16 or more it writes what I holds (43_index_memory.md R202). -/
theorem execLdFVx_eq (x : RegIndex) (s : State) :
    execLdFVx x s = .next (s.setI (if (s.reg x).toNat < 16 then glyphAddr (s.reg x) else s.i)).advance := by
  unfold execLdFVx
  split <;> rfl

/-! ### The errors an instruction raises, and the fields it may change -/

/-- The instruction raises the error from the state `s`: the rows of 60_exceptions.md R281 for instructions. -/
inductive Raises (s : State) : Instr → Fault → Prop where
  | underflow (hsp : s.sp.val = 0) : Raises s .ret (.outOfBoundsAccess .stackUnderflow 0 s.pc)
  | overflow (nnn : Addr12) (hsp : s.sp.val = 16) : Raises s (.call nnn) (.outOfBoundsAccess .stackOverflow 16 s.pc)
  | skp (x : RegIndex) (hkey : 16 ≤ (s.reg x).toNat) :
    Raises s (.skp x) (.outOfBoundsAccess .keypad (s.reg x).toNat s.pc)
  | sknp (x : RegIndex) (hkey : 16 ≤ (s.reg x).toNat) :
    Raises s (.sknp x) (.outOfBoundsAccess .keypad (s.reg x).toNat s.pc)
  | access {i : Instr} {k : Nat} (hk : AccessesOffset i k) (hbad : 4096 ≤ s.i.toNat + k) :
    Raises s i (.outOfBoundsAccess .memory (s.i.toNat + k) s.pc)

/-- From `s` to `t` only the fields changed that the instruction writes when it completes; the next PC is given where it
does not depend on a condition, a key or the stack. -/
def ChangesOnly (i : Instr) (s t : State) : Prop :=
  match i with
  | .jp nnn => t = { s with pc := zextAddr nnn }
  | .jpV0 nnn => t = { s with pc := zextAddr nnn + zextByte (s.reg 0) }
  | .call nnn => t = { s with stack := t.stack, sp := t.sp, pc := zextAddr nnn }
  | .ret => t = { s with sp := t.sp, pc := t.pc }
  | .seImm _ _ | .sneImm _ _ | .seReg _ _ | .sneReg _ _ | .skp _ | .sknp _ => t = { s with pc := t.pc }
  | .ldVxK _ => t = { s with v := t.v, pc := t.pc }
  | .rnd _ _ => t = { s with v := t.v, draws := t.draws, pc := s.pc + 2 }
  | .cls => t = { s with fb := t.fb, pc := s.pc + 2 }
  | .drw _ _ _ => t = { s with fb := t.fb, v := t.v, pc := s.pc + 2 }
  | .ldI _ | .addIVx _ | .ldFVx _ => t = { s with i := t.i, pc := s.pc + 2 }
  | .ldDtVx _ => t = { s with dt := t.dt, pc := s.pc + 2 }
  | .ldStVx _ => t = { s with st := t.st, pc := s.pc + 2 }
  | .ldBVx _ | .ldMemVx _ => t = { s with mem := t.mem, pc := s.pc + 2 }
  | _ => t = { s with v := t.v, pc := s.pc + 2 }

theorem State.skipIf_frame (s : State) (c : Bool) : s.skipIf c = { s with pc := (s.skipIf c).pc } := by
  cases c <;> rfl

/-- Loading registers changes them and PC alone. The loaded register file is generalised, so that `rfl` does not compute
its sixteen registers. -/
theorem State.advance_setRegs_frame (s : State) (bs : List Byte) :
    (s.setRegs bs).advance = { s with v := (s.setRegs bs).advance.v, pc := s.pc + 2 } := by
  unfold State.setRegs
  generalize Vector.ofFn _ = v
  rfl

/-- An instruction that stores bytes at I changes memory alone, or raises the error of an offset it accesses. -/
theorem storeAtIndex_changesOnly {i : Instr} {s t : State} {bs : List Byte} (h : storeAtIndex bs s = .next t)
    (hacc : ∀ k < bs.length, AccessesOffset i k) :
    t = { s with mem := t.mem, pc := s.pc + 2 } ∨ ∃ e, Raises s i e ∧ t = takeFatal e s := by
  obtain ⟨-, rfl⟩ | ⟨k, hk, hbad, rfl⟩ := storeAtIndex_next h
  · exact .inl rfl
  · exact .inr ⟨_, .access (hacc k hk) hbad, rfl⟩

/-- An instruction completes and changes only its own fields, or it raises one of its errors. -/
theorem exec_next {i : Instr} {s t : State} (h : exec i s = .next t) :
    ChangesOnly i s t ∨ ∃ e, Raises s i e ∧ t = takeFatal e s := by
  cases i with
  | ret =>
    obtain ⟨j, -, rfl⟩ | ⟨hsp, rfl⟩ := execRet_next h
    · exact .inl rfl
    · exact .inr ⟨_, .underflow hsp, rfl⟩
  | call nnn =>
    obtain ⟨hsp, rfl⟩ | ⟨hsp, rfl⟩ := execCall_next h
    · exact .inl rfl
    · exact .inr ⟨_, .overflow nnn hsp, rfl⟩
  | seImm x kk | sneImm x kk | seReg x y | sneReg x y => cases h; exact .inl (s.skipIf_frame _)
  | skp x =>
    obtain ⟨c, rfl⟩ | ⟨hkey, rfl⟩ := skipOnKey_next h
    · exact .inl (s.skipIf_frame c)
    · exact .inr ⟨_, .skp x hkey, rfl⟩
  | sknp x =>
    obtain ⟨c, rfl⟩ | ⟨hkey, rfl⟩ := skipOnKey_next h
    · exact .inl (s.skipIf_frame c)
    · exact .inr ⟨_, .sknp x hkey, rfl⟩
  | drw x y n =>
    obtain ⟨fb, flag, rfl⟩ | ⟨k, hk, hbad, rfl⟩ := execDrw_next h
    · exact .inl rfl
    · exact .inr ⟨_, .access hk hbad, rfl⟩
  | ldVxK x => obtain rfl | ⟨b, rfl⟩ := execLdVxK_next h <;> exact .inl rfl
  | ldFVx x =>
    cases (execLdFVx_eq x s).symm.trans h
    exact .inl rfl
  | ldBVx x => exact storeAtIndex_changesOnly h fun k hk => hk
  | ldMemVx x =>
    refine storeAtIndex_changesOnly h fun k hk => ?_
    rw [length_regsThrough] at hk
    exact Nat.le_of_lt_succ hk
  | ldVxMem x =>
    obtain ⟨bs, -, rfl⟩ | ⟨k, hk, hbad, rfl⟩ := loadFromIndex_next h
    · exact .inl (s.advance_setRegs_frame bs)
    · exact .inr ⟨_, .access hk hbad, rfl⟩
  | _ => cases h; exact .inl rfl

/-- The next state of an instruction that raises no error changes only the instruction's own fields. -/
theorem changesOnly_of_running {i : Instr} {s t : State} (h : exec i s = .next t) (ht : t.halt = .running) :
    ChangesOnly i s t := by
  obtain hc | ⟨e, -, rfl⟩ := exec_next h
  · exact hc
  · cases ht

/-! ### The fields no instruction changes but its writers -/

namespace ChangesOnly

variable {i : Instr} {s t : State}

theorem halt (h : ChangesOnly i s t) : t.halt = s.halt := by
  cases i <;> exact (congrArg State.halt h :)

theorem key (h : ChangesOnly i s t) : t.key = s.key := by
  cases i <;> exact (congrArg State.key h :)

theorem mem (h : ChangesOnly i s t) (hb : ∀ x, i ≠ .ldBVx x) (hm : ∀ x, i ≠ .ldMemVx x) : t.mem = s.mem := by
  cases i with
  | ldBVx x => exact absurd rfl (hb x)
  | ldMemVx x => exact absurd rfl (hm x)
  | _ => exact (congrArg State.mem h :)

theorem index (h : ChangesOnly i s t) (ha : ∀ a, i ≠ .ldI a) (hx : ∀ x, i ≠ .addIVx x) (hf : ∀ x, i ≠ .ldFVx x) :
    t.i = s.i := by
  cases i with
  | ldI a => exact absurd rfl (ha a)
  | addIVx x => exact absurd rfl (hx x)
  | ldFVx x => exact absurd rfl (hf x)
  | _ => exact (congrArg State.i h :)

theorem sp (h : ChangesOnly i s t) (hc : ∀ a, i ≠ .call a) (hr : i ≠ .ret) : t.sp = s.sp := by
  cases i with
  | call a => exact absurd rfl (hc a)
  | ret => exact absurd rfl hr
  | _ => exact (congrArg State.sp h :)

theorem stack (h : ChangesOnly i s t) (hc : ∀ a, i ≠ .call a) : t.stack = s.stack := by
  cases i with
  | call a => exact absurd rfl (hc a)
  | _ => exact (congrArg State.stack h :)

theorem fb (h : ChangesOnly i s t) (hc : i ≠ .cls) (hd : ∀ x y n, i ≠ .drw x y n) : t.fb = s.fb := by
  cases i with
  | cls => exact absurd rfl hc
  | drw x y n => exact absurd rfl (hd x y n)
  | _ => exact (congrArg State.fb h :)

theorem dt (h : ChangesOnly i s t) (hd : ∀ x, i ≠ .ldDtVx x) : t.dt = s.dt := by
  cases i with
  | ldDtVx x => exact absurd rfl (hd x)
  | _ => exact (congrArg State.dt h :)

theorem st (h : ChangesOnly i s t) (hs : ∀ x, i ≠ .ldStVx x) : t.st = s.st := by
  cases i with
  | ldStVx x => exact absurd rfl (hs x)
  | _ => exact (congrArg State.st h :)

end ChangesOnly

end Sys2Proof.Machine

/-! PROOFS. The whole-machine rules: which instructions raise an error, and which may change what. -/

namespace Sys2Proof.Machine

/-- Settles O10: the instruction did not complete, so it took one of its errors, which is the one recorded. -/
theorem instructionsRaiseOnlyTheirErrors : Obligations.InstructionsRaiseOnlyTheirErrors := by
  intro i s t e hrun hexec hhalt
  obtain hc | ⟨e', hraise, rfl⟩ := exec_next hexec
  · rw [hc.halt, hrun] at hhalt
    cases hhalt
  · cases hhalt
    cases hraise with
    | underflow hsp => exact ⟨hsp, rfl, rfl⟩
    | overflow nnn hsp => exact ⟨hsp, rfl, rfl⟩
    | skp x hkey => exact ⟨hkey, rfl, rfl⟩
    | sknp x hkey => exact ⟨hkey, rfl, rfl⟩
    | access hk hbad =>
      cases i with
      | drw | ldBVx | ldMemVx | ldVxMem => exact ⟨⟨_, hk, rfl⟩, hbad, rfl⟩
      | _ => exact hk.elim

/-- Settles O44: neither field is among those that any other instruction writes. -/
theorem memoryAndIndexWriters : Obligations.MemoryAndIndexWriters := by
  intro i s t _ hexec ht
  have hc := changesOnly_of_running hexec ht
  exact ⟨fun hb hm a => congrArg (Memory.byte · a) (hc.mem hb hm), hc.index⟩

/-- The stack pointer moves by at most one. -/
theorem exec_sp {i : Instr} {s t : State} (h : exec i s = .next t) (ht : t.halt = .running) :
    t.sp.val ≤ s.sp.val + 1 ∧ s.sp.val ≤ t.sp.val + 1 := by
  have hc := changesOnly_of_running h ht
  cases i with
  | ret =>
    obtain ⟨j, hj, rfl⟩ | ⟨-, rfl⟩ := execRet_next h
    · simp only; omega
    · cases ht
  | call nnn =>
    obtain ⟨hsp, rfl⟩ | ⟨-, rfl⟩ := execCall_next h
    · simp only; omega
    · cases ht
  | _ =>
    rw [hc.sp nofun nofun]
    omega

/-- Settles O45: the call and the return are the two that move SP, the call alone writes an entry. -/
theorem stackWriters : Obligations.StackWriters := by
  intro i s t _ hexec ht
  have hc := changesOnly_of_running hexec ht
  exact ⟨hc.sp, hc.stack, exec_sp hexec ht⟩

/-- Settles O46: no device field is among those that any other instruction writes. -/
theorem deviceWriters : Obligations.DeviceWriters := by
  intro i s t _ hexec ht
  have hc := changesOnly_of_running hexec ht
  exact ⟨hc.fb, hc.dt, hc.st, hc.key⟩

/-! ### VF -/

/-- Writing one register leaves VF unless it is VF. -/
theorem State.reg_F_setReg (s : State) (x : RegIndex) (b : Byte) : (s.setReg x b).reg 0xF = s.reg 0xF ∨ x = 0xF := by
  by_cases hx : x = 0xF
  · exact .inr hx
  · exact .inl (s.reg_setReg_ne (Ne.symm hx) b)

/-- Settles O47: an instruction that writes no register leaves VF, one that writes a single register leaves VF unless it
is VF, and `Fx65` writes at most the fifteen registers below VF. -/
theorem flagWriters : Obligations.FlagWriters := by
  intro i s t _ hexec ht
  have hc := changesOnly_of_running hexec ht
  cases i with
  | addReg | sub | shr | subn | shl | drw => exact .inr trivial
  | ldImm x | addImm x | ldReg x | orReg x | andReg x | xorReg x | ldVxDt x =>
    cases hexec
    exact s.reg_F_setReg x _
  | rnd x kk => cases hexec; exact s.countDraw.reg_F_setReg x _
  | ldVxK x =>
    obtain rfl | ⟨b, rfl⟩ := execLdVxK_next hexec
    · exact .inl rfl
    · exact s.reg_F_setReg x b
  | ldVxMem x =>
    obtain ⟨bs, hlen, rfl⟩ | ⟨k, -, -, rfl⟩ := loadFromIndex_next hexec
    · have hshort : bs.length ≤ 15 := by rw [hlen, loadCount_fx65]; omega
      left
      rw [State.advance_reg, State.reg_setRegs]
      exact List.getD_eq_default _ _ hshort
    · cases ht
  | _ => exact .inl (congrArg (State.reg · 0xF) hc :)

/-! ### The next PC -/

theorem State.skipIf_pc_cases (s : State) (c : Bool) : (s.skipIf c).pc = s.pc + 2 ∨ (s.skipIf c).pc = s.pc + 4 := by
  cases c
  · exact .inl rfl
  · exact .inr rfl

/-- Settles O48: a skip has its two next PCs, the return's and the key wait's come from the stack and the keys, and
every other instruction has one. -/
theorem nextPcByClass : Obligations.NextPcByClass := by
  intro i s t _ hexec ht
  have hc := changesOnly_of_running hexec ht
  cases i with
  | ret =>
    obtain ⟨j, hj, rfl⟩ | ⟨-, rfl⟩ := execRet_next hexec
    · exact ⟨j, hj, rfl⟩
    · cases ht
  | seImm | sneImm | seReg | sneReg => cases hexec; exact s.skipIf_pc_cases _
  | skp | sknp =>
    obtain ⟨c, rfl⟩ | ⟨-, rfl⟩ := skipOnKey_next hexec
    · exact s.skipIf_pc_cases c
    · cases ht
  | ldVxK x =>
    obtain rfl | ⟨b, rfl⟩ := execLdVxK_next hexec
    · exact .inl rfl
    · exact .inr rfl
  | _ => exact (congrArg State.pc hc :)

end Sys2Proof.Machine

/-! PROOFS. The invariant: it holds after construction, and every cycle and every host call keeps it. -/

namespace Sys2Proof.Machine

/-- A cell of the call stack or of the keypad after one cell is written. -/
theorem getElem_set_cell {α : Type} (cells : Vector α 16) {n : Nat} (hn : n < 16) (a : α) (j : Fin 16) :
    (cells.set n a hn)[j] = if j.val = n then a else cells[j] := by
  rw [Fin.getElem_fin, Vector.getElem_set]
  simp only [eq_comm, Fin.getElem_fin]

/-! ### After construction -/

/-- Settles O11: nothing is listed in memory, so every byte is what an unlisted address reads as. -/
theorem resetLeavesTheStatedValues : Obligations.ResetLeavesTheStatedValues := by
  refine ⟨fun a ha => ?memory, rfl, State.reset_reg, rfl, rfl, rfl, ?stack, rfl, rfl, ?pixels, ?keys, rfl⟩
  case memory => exact if_neg (Nat.not_lt.mpr ha)
  case stack => exact fun j => Vector.getElem_replicate j.isLt
  case pixels => exact Framebuffer.pixel_replicate false
  case keys => exact fun k => Vector.getElem_replicate k.isLt

/-- Settles O12: every key cell and every stack entry is 0, and PC is 0x200. -/
theorem resetSatisfiesTheInvariant : Obligations.ResetSatisfiesTheInvariant := by
  refine ⟨rfl, fun _ => ⟨fun k => .inl ?key, by decide, fun j => ?entry⟩⟩
  case key => exact Vector.getElem_replicate k.isLt
  case entry =>
    have h0 : State.reset.stack[j] = 0 := Vector.getElem_replicate j.isLt
    rw [h0]
    decide

/-! ### Over a step -/

section
variable {i : Instr} {s t : State}

/-- A store at I answers a memory in canonical form, whether it completes or not. -/
theorem storeAtIndex_mem_wf {bs : List Byte} (hwf : Memory.wf s.mem = true) (h : storeAtIndex bs s = .next t) :
    Memory.wf t.mem = true := by
  obtain ⟨hnil | hfit, rfl⟩ | ⟨k, -, -, rfl⟩ := storeAtIndex_next h
  · rw [List.length_eq_zero_iff.mp hnil]
    exact hwf
  · exact Memory.setBytes_wf hwf bs hfit
  · exact takeFatal_wf _ s

/-- Whatever an instruction answers, its memory is in canonical form (20_memory.md R60). -/
theorem exec_mem_wf (hwf : Memory.wf s.mem = true) (h : exec i s = .next t) : Memory.wf t.mem = true := by
  obtain hc | ⟨e, -, rfl⟩ := exec_next h
  · cases i with
    | ldBVx x | ldMemVx x => exact storeAtIndex_mem_wf hwf h
    | _ => rwa [hc.mem nofun nofun]
  · exact takeFatal_wf e s

/-- The address a few bytes after a word in memory needs no wrap (40_cycle.md R126). -/
theorem toNat_pc_add {k : Word} (hpc : s.pc.toNat + 1 < 4096) (hk : k.toNat ≤ 4) :
    (s.pc + k).toNat = s.pc.toNat + k.toNat :=
  BitVec.toNat_add_of_lt (by omega)

/-- The next PC is at most 0x10FE, the target of `BFFF` with V0 = 0xFF (40_cycle.md R126): an address field is at most
0xFFF, an entry at most 0x1000, and the word at PC lies in memory. -/
theorem exec_pc_le (hrun : s.halt = .running) (hpc : s.pc.toNat + 1 < 4096)
    (hstack : ∀ j : Fin 16, s.stack[j].toNat ≤ 0x1000) (h : exec i s = .next t) (ht : t.halt = .running) :
    t.pc.toNat ≤ 0x10FE := by
  have hnext := nextPcByClass i s t hrun h ht
  have h2 : (s.pc + 2).toNat = s.pc.toNat + 2 := toNat_pc_add hpc (by decide)
  have h4 : (s.pc + 4).toNat = s.pc.toNat + 4 := toNat_pc_add hpc (by decide)
  cases i with
  | jp nnn | call nnn =>
    have hval : t.pc.toNat = nnn.toNat := (congrArg BitVec.toNat hnext).trans (toNat_zextAddr nnn)
    omega
  | jpV0 nnn =>
    have hval := (congrArg BitVec.toNat hnext).trans (toNat_zextAddr_add_zextByte nnn (s.reg 0))
    omega
  | ret =>
    obtain ⟨j, -, hj⟩ := hnext
    rw [hj]
    exact Nat.le_trans (hstack j) (by decide)
  | seImm | sneImm | seReg | sneReg | skp | sknp | ldVxK => obtain hp | hp := hnext <;> rw [hp] <;> omega
  | _ =>
    have hval : t.pc.toNat = s.pc.toNat + 2 := (congrArg BitVec.toNat hnext).trans h2
    omega

/-- Every stack entry is at most 0x1000: the one a call writes is the address after a word in memory. -/
theorem exec_stack_le (hpc : s.pc.toNat + 1 < 4096) (hstack : ∀ j : Fin 16, s.stack[j].toNat ≤ 0x1000)
    (h : exec i s = .next t) (ht : t.halt = .running) (j : Fin 16) : t.stack[j].toNat ≤ 0x1000 := by
  have hc := changesOnly_of_running h ht
  cases i with
  | call nnn =>
    obtain ⟨hsp, rfl⟩ | ⟨-, rfl⟩ := execCall_next h
    · simp only [getElem_set_cell]
      split
      · rw [toNat_pc_add hpc (by decide)]; exact hpc
      · exact hstack j
    · cases ht
  | _ =>
    rw [hc.stack nofun]
    exact hstack j

end

/-- The state a fatal error leaves has the invariant: its memory is in canonical form, and it does not run. -/
theorem inv_takeFatal (e : Fault) (s : State) : (takeFatal e s).Inv :=
  ⟨takeFatal_wf e s, nofun⟩

/-- Settles O13: memory, keys, PC and stack each by the lemma on what an instruction can do to them. -/
theorem stepKeepsTheInvariant : Obligations.StepKeepsTheInvariant := by
  intro s t hinv hstep
  obtain ⟨hrun, ⟨e, -, rfl⟩ | ⟨i, -, hpc, hexec⟩⟩ := step_cases hstep
  · exact inv_takeFatal e s
  · obtain ⟨hwf, hfields⟩ := hinv
    obtain ⟨hkey, -, hstack⟩ := hfields hrun
    refine ⟨exec_mem_wf hwf hexec, fun ht => ⟨?key, ?pc, ?stack⟩⟩
    case key => rwa [(changesOnly_of_running hexec ht).key]
    case pc => exact exec_pc_le hrun hpc hstack hexec ht
    case stack => exact exec_stack_le hpc hstack hexec ht

/-! ### Over a host call -/

/-- No host call but the construction of a new core changes more than memory, keys and timers
(60_exceptions.md R296). -/
theorem hostCall_frame {c : HostCall} {s t : State} (hc : c ≠ .construct) (h : hostCall c s = .next t) :
    t = { s with mem := t.mem, key := t.key, dt := t.dt, st := t.st } := by
  cases c with
  | construct => exact absurd rfl hc
  | load bytes =>
    obtain ⟨-, rfl⟩ := load_next h
    rfl
  | _ => cases h; rfl

theorem hostCall_mem_wf {c : HostCall} {s t : State} (hwf : Memory.wf s.mem = true) (h : hostCall c s = .next t) :
    Memory.wf t.mem = true := by
  cases c with
  | load bytes =>
    obtain ⟨hfit, rfl⟩ := load_next h
    exact Memory.setBytes_wf hwf bytes hfit
  | construct => cases h; rfl
  | _ => cases h; exact hwf

/-- Writing 0 or 1 into a key cell leaves every cell 0 or 1. -/
theorem State.setKey_bits {s : State} (hkey : ∀ k : KeyIndex, s.key[k] = 0 ∨ s.key[k] = 1) (k : KeyIndex) {b : Byte}
    (hb : b = 0 ∨ b = 1) (j : KeyIndex) : (s.setKey k b).key[j] = 0 ∨ (s.setKey k b).key[j] = 1 := by
  rw [State.setKey_key, getElem_set_cell]
  split
  · exact hb
  · exact hkey j

theorem hostCall_key {c : HostCall} {s t : State} (hkey : ∀ k : KeyIndex, s.key[k] = 0 ∨ s.key[k] = 1)
    (h : hostCall c s = .next t) : ∀ k : KeyIndex, t.key[k] = 0 ∨ t.key[k] = 1 := by
  cases c with
  | construct => cases h; exact fun k => .inl (Vector.getElem_replicate k.isLt)
  | load bytes =>
    obtain ⟨-, rfl⟩ := load_next h
    exact hkey
  | pressKey k => cases h; exact State.setKey_bits hkey k (.inr rfl)
  | releaseKey k => cases h; exact State.setKey_bits hkey k (.inl rfl)
  | _ => cases h; exact hkey

/-- Settles O14: a host call leaves PC, stack and HALT, and the memory and the keys it writes are as the invariant asks;
construction gives the state after reset. -/
theorem hostCallKeepsTheInvariant : Obligations.HostCallKeepsTheInvariant := by
  intro c s t hinv h
  by_cases hc : c = .construct
  · subst hc
    cases h
    exact resetSatisfiesTheInvariant
  · obtain ⟨hwf, hfields⟩ := hinv
    have hframe := hostCall_frame hc h
    refine ⟨hostCall_mem_wf hwf h, fun ht => ?_⟩
    rw [hframe] at ht
    obtain ⟨hkey, hpc, hstack⟩ := hfields ht
    refine ⟨hostCall_key hkey h, ?_⟩
    rw [hframe]
    exact ⟨hpc, hstack⟩

/-! ### Over a run -/

theorem move_keeps_inv {m : Move} {s t : State} (hinv : s.Inv) (h : move m s = .next t) : t.Inv := by
  cases m with
  | cycle => exact stepKeepsTheInvariant s t hinv h
  | host c => exact hostCallKeepsTheInvariant c s t hinv h

/-- A run that completes its first move completes the others from where it left (60_exceptions.md R297). -/
theorem runMoves_cons {m : Move} {ms : List Move} {s u : State} (h : runMoves (m :: ms) s = .next u) :
    ∃ t, move m s = .next t ∧ runMoves ms t = .next u := by
  rw [runMoves] at h
  split at h
  case h_1 t hm => exact ⟨t, hm, h⟩
  case h_2 => cases h
  case h_3 => cases h

theorem runMoves_keeps_inv {ms : List Move} {s u : State} (hinv : s.Inv) (h : runMoves ms s = .next u) : u.Inv := by
  induction ms generalizing s with
  | nil => cases h; exact hinv
  | cons m ms ih =>
    obtain ⟨t, hm, hms⟩ := runMoves_cons h
    exact ih (move_keeps_inv hinv hm) hms

/-- Settles O15: induction over the moves, from construction. -/
theorem reachableStatesHaveTheInvariant : Obligations.ReachableStatesHaveTheInvariant := by
  rintro s ⟨ms, hrun⟩
  exact runMoves_keeps_inv resetSatisfiesTheInvariant hrun

end Sys2Proof.Machine

/-! PROOFS. The family 41_control.md: call and return. -/

namespace Sys2Proof.Machine

/-- Settles O24: the entry at the old SP is the one cell of the stack that is written. -/
theorem callPushesTheReturnAddress : Obligations.CallPushesTheReturnAddress := by
  intro nnn s hsp
  exact ⟨_, execCall_ok nnn hsp, rfl, toNat_zextAddr nnn, getElem_set_cell s.stack hsp (s.pc + 2), fun _ => rfl,
    rfl, rfl, ⟨rfl, rfl⟩, rfl, rfl, rfl⟩

/-- Settles O25: the popped entry stays in place. -/
theorem returnPopsTheReturnAddress : Obligations.ReturnPopsTheReturnAddress := by
  intro s j hsp
  exact ⟨_, execRet_ok j hsp, rfl, rfl, rfl, fun _ => rfl, rfl, rfl, ⟨rfl, rfl⟩, rfl, rfl, rfl⟩

/-- Settles O26: both take the error before they move SP. -/
theorem stackOverflowAndUnderflowHalt : Obligations.StackOverflowAndUnderflowHalt := by
  intro nnn s
  exact ⟨fun hfull => ⟨_, execCall_error nnn hfull, rfl⟩, fun hempty => ⟨_, execRet_error hempty, rfl⟩⟩

/-- Settles O27: the return pops the entry the call has just pushed. -/
theorem callThenReturnComesBack : Obligations.CallThenReturnComesBack := by
  intro nnn s hsp
  obtain ⟨t, ht, htsp, -, hstack, htmem, htv, hti, -⟩ := callPushesTheReturnAddress nnn s hsp
  obtain ⟨u, hu, husp, hupc, -, humem, huv, hui, -⟩ := returnPopsTheReturnAddress t ⟨s.sp.val, hsp⟩ htsp
  refine ⟨t, u, ht, hu, advanced_of_pc ?pc, Fin.ext husp, huv.trans htv, hui.trans hti,
    fun a => (humem a).trans (htmem a)⟩
  case pc => rw [hupc, hstack, if_pos rfl]

end Sys2Proof.Machine

/-! PROOFS. The family 42_alu.md: the bitwise operations and the random byte. -/

namespace Sys2Proof.Machine

/-- An instruction that ends by writing one register writes it bit by bit. -/
theorem writeReg_completes_bits (x : RegIndex) {b : Byte} {bit : Nat → Bool} (hbit : ∀ j, b.getLsbD j = bit j)
    (s : State) :
    ∃ t, writeReg x b s = .next t ∧ (∀ j < 8, (t.reg x).getLsbD j = bit j) ∧
      Advanced s t ∧ SameRegsBut s t (· = x) ∧ SameBesidesRegs s t := by
  obtain ⟨t, ht, hx, hframe⟩ := writeReg_completes x b s
  exact ⟨t, ht, fun j _ => by rw [hx, hbit], hframe⟩

/-- Settles O17: each ends by writing Vx alone, with the byte whose bits are those of the operation. -/
theorem logicBitByBit : Obligations.LogicBitByBit := fun x _ s =>
  ⟨writeReg_completes_bits x (fun _ => BitVec.getLsbD_or) s,
    writeReg_completes_bits x (fun _ => BitVec.getLsbD_and) s,
    writeReg_completes_bits x (fun _ => BitVec.getLsbD_xor) s⟩

/-- Settles O21: it writes Vx alone from a state whose draw is counted, and a bit clear in the mask is clear in the
AND. -/
theorem randomByteIsMasked : Obligations.RandomByteIsMasked := by
  intro x kk s
  refine ⟨(s.countDraw.setReg x (Config.randomByte s.draws &&& kk)).advance, rfl, ?value, ?bits, ?zero, rfl,
    advanced_of_pc rfl, fun _ hr => State.reg_setReg_ne s.countDraw hr _, ?rest⟩
  case value => rw [State.advance_reg, State.reg_setReg_same]
  case bits =>
    intro j _ hj
    rw [State.advance_reg, State.reg_setReg_same, BitVec.getLsbD_and, hj, Bool.and_false]
  case zero =>
    rintro rfl
    rw [State.advance_reg, State.reg_setReg_same]
    exact BitVec.and_zero
  case rest => exact ⟨fun _ => rfl, rfl, ⟨rfl, rfl⟩, ⟨rfl, rfl⟩, rfl, rfl, rfl⟩

end Sys2Proof.Machine

/-! PROOFS. The family 43_index_memory.md: the glyph address, the stores and the load. -/

namespace Sys2Proof.Machine

/-- Settles O29: five bytes per glyph, and the largest glyph address needs no wrap. -/
theorem glyphAddressOfDigit : Obligations.GlyphAddressOfDigit := by
  intro x s
  obtain ⟨hadv, hframe⟩ := advance_setI_frame s (if (s.reg x).toNat < 16 then glyphAddr (s.reg x) else s.i)
  refine ⟨_, execLdFVx_eq x s, ?digit, ?other, hadv, hframe⟩
  case digit =>
    intro hx
    have hfit : (s.reg x).toNat * glyphBytes < 2 ^ 16 := by rw [glyphBytes]; omega
    rw [State.advance_i, State.setI_i, if_pos hx, glyphAddr, BitVec.toNat_ofNat, Nat.mod_eq_of_lt hfit, glyphBytes]
  case other =>
    intro hx
    rw [State.advance_i, State.setI_i, if_neg (Nat.not_lt.mpr hx)]

/-- An instruction that stores bytes at I, all of them in memory, completes with the j-th at I + j, and changes PC and
no other byte besides. -/
theorem storeAtIndex_completes {bs : List Byte} {s : State} (hwf : Memory.wf s.mem = true)
    (hfit : s.i.toNat + bs.length ≤ 4096) :
    ∃ t, storeAtIndex bs s = .next t ∧
      (∀ (j : Nat) (hj : j < bs.length), Memory.byte t.mem (s.i.toNat + j) = bs[j]) ∧
      SameMemoryOutside s t s.i.toNat bs.length ∧ Advanced s t ∧
      t.v = s.v ∧ t.i = s.i ∧ SameStack s t ∧ SameTimers s t ∧ SameDevices s t :=
  ⟨_, storeAtIndex_ok (.inr hfit), fun _ hj => Memory.byte_setBytes_inside hwf bs hfit hj,
    fun _ hc => Memory.byte_setBytes_outside s.mem bs hc, advanced_of_pc rfl, rfl, rfl, ⟨rfl, rfl⟩, ⟨rfl, rfl⟩,
    rfl, rfl, rfl⟩

/-- A number that fits in a byte is the byte's value. -/
theorem toNat_ofNat_byte {n : Nat} (h : n < 256) : (BitVec.ofNat 8 n).toNat = n :=
  (BitVec.toNat_ofNat n 8).trans (Nat.mod_eq_of_lt h)

/-- Settles O30: the three bytes stored are the three digits. -/
theorem storeDecimalDigits : Obligations.StoreDecimalDigits := by
  intro x s hwf hfit
  have hlt := (s.reg x).isLt
  have hlen := length_decimalDigits (s.reg x)
  obtain ⟨t, ht, hbytes, hframe⟩ := storeAtIndex_completes (bs := decimalDigits (s.reg x)) hwf hfit
  refine ⟨t, ht, ?hundreds, ?tens, ?units, hframe⟩
  case hundreds => exact (congrArg BitVec.toNat (hbytes 0 (by omega))).trans (toNat_ofNat_byte (by omega))
  case tens => exact (congrArg BitVec.toNat (hbytes 1 (by omega))).trans (toNat_ofNat_byte (by omega))
  case units => exact (congrArg BitVec.toNat (hbytes 2 (by omega))).trans (toNat_ofNat_byte (by omega))

/-- Settles O31: the byte stored at offset j is the j-th register. -/
theorem storeRegistersThroughVx : Obligations.StoreRegistersThroughVx := by
  intro x s hwf hfit
  have hlen := length_regsThrough s x
  obtain ⟨t, ht, hbytes, hframe⟩ := storeAtIndex_completes (bs := regsThrough s x) hwf (by omega)
  rw [hlen] at hframe
  refine ⟨t, ht, fun j hj => ?_, hframe⟩
  rw [hbytes j.val (by omega), getElem_regsThrough]
  rfl

/-- An instruction that changes registers alone advances PC and leaves the rest. -/
theorem advanced_sameBesidesRegs_of {s t : State} (h : t = { s with v := t.v, pc := s.pc + 2 }) :
    Advanced s t ∧ SameBesidesRegs s t :=
  ⟨advanced_of_pc (congrArg State.pc h), sameBesidesRegs_of (by rw [h])⟩

/-- Settles O32: the list loaded has x bytes, so it reaches V0 to V(x-1) and no other register. -/
theorem loadRegistersBelowVx : Obligations.LoadRegistersBelowVx := by
  intro x s hfit
  refine ⟨_, loadFromIndex_ok (n := x.val) (hfit.imp_left fun hx => congrArg Fin.val hx), fun j hj => ?loaded,
    fun r hr => ?kept, advanced_sameBesidesRegs_of (s.advance_setRegs_frame _)⟩
  case loaded =>
    rw [State.advance_reg, State.reg_setRegs, List.getD_eq_getElem _ _ (by rwa [List.length_ofFn]), List.getElem_ofFn]
  case kept =>
    rw [State.advance_reg, State.reg_setRegs]
    exact List.getD_eq_default _ _ (by rw [List.length_ofFn]; exact Nat.not_lt.mp hr)

/-- Settles O33: the load reads at the I the store left, the bytes the store wrote there. -/
theorem storeThenLoadRestoresBelowVx : Obligations.StoreThenLoadRestoresBelowVx := by
  intro x s v hwf hfit
  obtain ⟨t, ht, hbytes, -, -, -, hti, -⟩ := storeRegistersThroughVx x s hwf hfit
  obtain ⟨u, hu, hloaded, hkept, -⟩ := loadRegistersBelowVx x { t with v := v } (.inr (by rw [hti]; omega))
  refine ⟨t, u, ht, hu, fun r => ?_⟩
  split
  case isTrue hr => rw [hloaded r hr, hti, hbytes r (Nat.le_of_lt hr)]
  case isFalse hr => exact hkept r hr

end Sys2Proof.Machine

/-! PROOFS. The family 20_memory.md: an access outside memory. -/

namespace Sys2Proof.Machine

/-- Settles O34: the offset `k` is the first of the instruction's accesses that is outside memory. -/
theorem firstBadAddressHalts : Obligations.FirstBadAddressHalts := by
  intro i s k hk hbelow hbad
  have hok : k = 0 ∨ s.i.toNat + k ≤ 4096 := by
    cases k with
    | zero => exact .inl rfl
    | succ k => exact .inr (hbelow k (Nat.lt_succ_self k))
  cases i with
  | drw x y n => exact ⟨_, execDrw_error x y n hk hok hbad, rfl⟩
  | ldBVx x => exact ⟨_, storeAtIndex_error hk hok hbad, rfl⟩
  | ldMemVx x =>
    have hlen : k < (regsThrough s x).length := by rw [length_regsThrough]; exact Nat.lt_succ_of_le hk
    exact ⟨_, storeAtIndex_error hlen hok hbad, rfl⟩
  | ldVxMem x => exact ⟨_, loadFromIndex_error hk hok hbad, rfl⟩
  | _ => exact hk.elim

end Sys2Proof.Machine

/-! PROOFS. The family 45_keypad_timers.md: the key skips and the key wait. -/

namespace Sys2Proof.Machine

/-- A skip on a key below 16 writes PC alone, by the cell of that key (45_keypad_timers.md R250, R251). -/
theorem skipOnKey_cell {b : Byte} {k : KeyIndex} (hk : b.toNat = k.val) (want : Bool) (s : State) :
    skipOnKey b want s = .next { s with pc := if (s.key[k] != 0) = want then s.pc + 4 else s.pc + 2 } := by
  have hlt : b.toNat < 16 := by omega
  have hcell : s.key[b.toNat] = s.key[k] := by simp only [hk, Fin.getElem_fin]
  rw [skipOnKey_ok want hlt, s.skipIf_decide, hcell]

/-- Settles O39: the key's cell is compared with 0, and the two skips want opposite answers. -/
theorem keySkips : Obligations.KeySkips := by
  intro x k s hk
  have hskp := skipOnKey_cell hk true s
  have hsknp := skipOnKey_cell hk false s
  simp only [bne_iff_ne, bne_eq_false_iff_eq] at hskp hsknp
  exact ⟨hskp, hsknp⟩

/-- Settles O40: the number of the key is checked before its cell is read. -/
theorem keyIndexOutOfRangeHalts : Obligations.KeyIndexOutOfRangeHalts := by
  intro x s hx
  exact ⟨⟨_, skipOnKey_error true hx, rfl⟩, ⟨_, skipOnKey_error false hx, rfl⟩⟩

theorem execLdVxK_some {x : RegIndex} {k : KeyIndex} {s : State} (h : lowestPressed s = some k) :
    execLdVxK x s = .next (s.setReg x (BitVec.ofNat 8 k.val)).advance := by
  simp only [execLdVxK, h]

/-- Settles O41: the key found is the lowest one pressed, and its number is a byte. -/
theorem keyWaitTakesTheLowestKey : Obligations.KeyWaitTakesTheLowestKey := by
  intro x k s hk hlow
  have hfound := (lowestPressed_some s k).mpr ⟨hk, hlow⟩
  obtain ⟨t, ht, hx, hframe⟩ := writeReg_completes x (BitVec.ofNat 8 k.val) s
  refine ⟨t, (execLdVxK_some hfound).trans ht, ?_, hframe⟩
  rw [hx, toNat_ofNat_byte (by omega)]

/-- Settles O42: no key is found. -/
theorem keyWaitWithoutAKeyChangesNothing : Obligations.KeyWaitWithoutAKeyChangesNothing := by
  intro x s hkeys
  simp only [exec, execLdVxK, (lowestPressed_none s).mpr hkeys]

/-- From a waiting state a cycle changes nothing. -/
theorem step_waiting {s : State} (h : s.Waiting) : step s = .next s := by
  obtain ⟨hrun, ⟨x, hfetch⟩, hkeys⟩ := h
  rw [step_of_fetch_ok hrun hfetch]
  exact keyWaitWithoutAKeyChangesNothing x s hkeys

/-- From an idle state a cycle changes nothing: the jump writes the PC it started with. -/
theorem step_idle {s : State} (h : s.Idle) : step s = .next s := by
  obtain ⟨hrun, nnn, hfetch, hpc⟩ := h
  rw [step_of_fetch_ok hrun hfetch]
  show Host.Outcome.next (s.setPc (zextAddr nnn)) = .next s
  rw [hpc]
  rfl

/-- Settles O54: in both states the instruction at PC writes nothing new. -/
theorem idleAndWaitingStatesStay : Obligations.IdleAndWaitingStatesStay := fun _ => ⟨step_idle, step_waiting⟩

/-- Fetching does not read the keypad. -/
theorem fetchInstr_setKey (s : State) (k : KeyIndex) (b : Byte) : fetchInstr (s.setKey k b) = fetchInstr s := rfl

/-- Settles O55: the first cycle changes nothing, the key pressed is then the only one, and the second cycle runs the
same instruction with it. -/
theorem keyPressEndsTheWait : Obligations.KeyPressEndsTheWait := by
  intro x k s hwait hfetch
  have hfirst := step_waiting hwait
  obtain ⟨hrun, -, hkeys⟩ := hwait
  have hpressed (j : KeyIndex) : (s.setKey k 1).key[j] = if j.val = k.val then 1 else s.key[j] :=
    getElem_set_cell s.key k.isLt 1 j
  have hk : (s.setKey k 1).key[k] ≠ 0 := by rw [hpressed, if_pos rfl]; decide
  have hlow (j : KeyIndex) (hj : j < k) : (s.setKey k 1).key[j] = 0 := by
    rw [hpressed, if_neg (Nat.ne_of_lt hj), hkeys]
  obtain ⟨t, ht, hx, hadv, hregs, -⟩ := keyWaitTakesTheLowestKey x k (s.setKey k 1) hk hlow
  have hsecond : step (s.setKey k 1) = .next t := by
    rw [step_of_fetch_ok (s := s.setKey k 1) hrun ((fetchInstr_setKey s k 1).trans hfetch), ht]
  refine ⟨t, ?_, hx, hadv, hregs⟩
  simp only [runMoves, move, hostCall, hfirst, hsecond]

end Sys2Proof.Machine

/-! PROOFS. The family 60_exceptions.md: the host's other calls. -/

namespace Sys2Proof.Machine

/-- Settles O49: the bound on the length is the room above 0x200. -/
theorem loadCopiesOrRefuses : Obligations.LoadCopiesOrRefuses := by
  intro bytes s hwf
  constructor
  · intro hlen
    have hfit : loadOrigin + bytes.length ≤ Config.memSize := by simp only [loadOrigin, Config.memSize]; omega
    exact ⟨s.setMem (Memory.setBytes s.mem loadOrigin bytes), if_pos hfit,
      fun j hj => Memory.byte_setBytes_inside hwf bytes hfit hj,
      fun c hc => Memory.byte_setBytes_outside s.mem bytes hc, rfl⟩
  · intro hlen
    have hlong : ¬ loadOrigin + bytes.length ≤ Config.memSize := by simp only [loadOrigin, Config.memSize]; omega
    exact if_neg hlong

/-- Settles O50: each writes its one byte into the cell of `k`. -/
theorem pressAndReleaseWriteOneCell : Obligations.PressAndReleaseWriteOneCell := by
  intro k s
  have hcell (b : Byte) (j : KeyIndex) : (s.setKey k b).key[j] = if j = k then b else s.key[j] := by
    simp only [State.setKey_key, getElem_set_cell, Fin.ext_iff]
  exact ⟨⟨_, rfl, hcell 1, rfl⟩, ⟨_, rfl, hcell 0, rfl⟩⟩

/-- A tick takes one off, and the subtraction of naturals stops at 0 (60_exceptions.md R301). -/
theorem toNat_tickTimer (t : Byte) : (tickTimer t).toNat = t.toNat - 1 := by
  unfold tickTimer
  split <;> bv_omega

/-- Settles O51: both timers take the same tick. -/
theorem tickStopsAtZero : Obligations.TickStopsAtZero := fun s =>
  ⟨_, rfl, toNat_tickTimer s.dt, toNat_tickTimer s.st, rfl⟩

/-- Settles O53: a halted core has no cycle, and HALT is not among the fields a host call changes. -/
theorem onlyConstructionRestarts : Obligations.OnlyConstructionRestarts := by
  refine ⟨fun m s t e hhalt hm h => ?_, fun s => ⟨_, rfl, rfl⟩⟩
  cases m with
  | cycle =>
    have hfault := step_halted hhalt
    rw [show step s = .next t from h] at hfault
    cases hfault
  | host c =>
    have hc : c ≠ .construct := fun hc => hm (congrArg Move.host hc)
    rw [hostCall_frame hc h]
    exact hhalt

/-- No host call but a tick and the construction of a new core writes ST (60_exceptions.md R300). -/
theorem hostCall_st {c : HostCall} {s t : State} (hc : c ≠ .construct) (htick : c ≠ .tickTimers)
    (h : hostCall c s = .next t) : t.st = s.st := by
  cases c with
  | construct => exact absurd rfl hc
  | tickTimers => exact absurd rfl htick
  | load bytes =>
    obtain ⟨-, rfl⟩ := load_next h
    rfl
  | _ => cases h; rfl

/-- Settles O56: what is read is ST, which Fx18 sets, a tick takes one off, and no other host call writes. -/
theorem hostReadsTheSoundTimer : Obligations.HostReadsTheSoundTimer := fun s =>
  ⟨rfl, rfl, fun _ => ⟨_, rfl, rfl⟩, ⟨_, rfl, toNat_tickTimer s.st⟩, fun _ _ hc htick h => hostCall_st hc htick h⟩

end Sys2Proof.Machine

/-! PROOFS. The family 44_display.md: the drawing loops flip a set of pixels, each of them once. -/

namespace Sys2Proof.Machine

/-! ### Drawings that flip a set of pixels -/

/-- From `d` to `d'` exactly the pixels of a set flip, and the collision is noted if one of them was set. -/
structure Flips (S : Column → Row → Prop) (d d' : Drawing) : Prop where
  inside : ∀ px py, S px py → d'.1.pixel px py = !d.1.pixel px py
  outside : ∀ px py, ¬ S px py → d'.1.pixel px py = d.1.pixel px py
  collision : d'.2 = true ↔ d.2 = true ∨ ∃ px py, S px py ∧ d.1.pixel px py = true

namespace Flips

variable {S T : Column → Row → Prop} {d e f : Drawing}

theorem congr (h : Flips S d e) (hST : ∀ px py, S px py ↔ T px py) : Flips T d e := by
  have hset : S = T := funext fun px => funext fun py => propext (hST px py)
  rwa [← hset]

/-- Nothing is drawn for an empty set. -/
theorem of_empty (hS : ∀ px py, ¬ S px py) : Flips S d d where
  inside px py h := absurd h (hS px py)
  outside _ _ _ := rfl
  collision := by simp [hS]

/-- Drawing two disjoint sets one after the other draws their union: the second sees the first's pixels as they were. -/
theorem trans (hS : Flips S d e) (hT : Flips T e f) (hdisj : ∀ px py, S px py → ¬ T px py) :
    Flips (fun px py => S px py ∨ T px py) d f where
  inside := by
    rintro px py (h | h)
    · rw [hT.outside px py (hdisj px py h), hS.inside px py h]
    · rw [hT.inside px py h, hS.outside px py fun hs => hdisj px py hs h]
  outside px py h := by
    rw [hT.outside px py (h ∘ .inr), hS.outside px py (h ∘ .inl)]
  collision := by
    have hsame : (∃ px py, T px py ∧ e.1.pixel px py = true) ↔ ∃ px py, T px py ∧ d.1.pixel px py = true := by
      refine exists₂_congr fun px py => and_congr_right fun h => ?_
      rw [hS.outside px py fun hs => hdisj px py hs h]
    rw [hT.collision, hS.collision, hsame]
    simp only [or_and_right, exists_or, or_assoc]

end Flips

/-! ### The three loops of 44_display.md R231 -/

section
variable {x0 y0 : Byte}

/-- The pixel is under column `col` of the sprite byte `b` drawn as row `r`, and the byte's bit there is set. -/
def UnderBit (x0 y0 : Byte) (r : Nat) (b : Byte) (col : Nat) (px : Column) (py : Row) : Prop :=
  px = wrapColumn x0 col ∧ py = wrapRow y0 r ∧ spriteBit b col = true

/-- Columns of one sprite byte fall on different columns of the screen (44_display.md R233). -/
theorem wrapColumn_inj {c c' : Nat} (hc : c < 8) (hc' : c' < 8) (h : wrapColumn x0 c = wrapColumn x0 c') : c = c' := by
  have hval := congrArg Fin.val h
  simp only [wrapColumn] at hval
  omega

/-- Rows of one sprite fall on different rows of the screen (44_display.md R233). -/
theorem wrapRow_inj {r r' : Nat} (hr : r < 32) (hr' : r' < 32) (h : wrapRow y0 r = wrapRow y0 r') : r = r' := by
  have hval := congrArg Fin.val h
  simp only [wrapRow] at hval
  omega

theorem flips_drawPixel (r : Nat) (b : Byte) (d : Drawing) (col : Nat) :
    Flips (UnderBit x0 y0 r b col) d (drawPixel x0 y0 r b d col) := by
  unfold drawPixel
  split
  case isFalse hbit => exact Flips.of_empty fun px py h => hbit h.2.2
  case isTrue hbit =>
    constructor
    case inside =>
      rintro px py ⟨rfl, rfl, -⟩
      exact Framebuffer.pixel_flip_same d.1 _ _
    case outside =>
      intro px py h
      exact Framebuffer.pixel_flip_ne d.1 fun ⟨hx, hy⟩ => h ⟨hx, hy, hbit⟩
    case collision =>
      simp [UnderBit, hbit]

/-- The first `n` columns of a row. -/
theorem flips_columns (r : Nat) (b : Byte) (d : Drawing) {n : Nat} (hn : n ≤ 8) :
    Flips (fun px py => ∃ col < n, UnderBit x0 y0 r b col px py) d
      ((List.range n).foldl (drawPixel x0 y0 r b) d) := by
  induction n with
  | zero => exact Flips.of_empty fun px py ⟨col, hcol, _⟩ => Nat.not_lt_zero col hcol
  | succ n ih =>
    rw [List.range_succ, List.foldl_append]
    refine ((ih (by omega)).trans (flips_drawPixel r b _ n) ?disjoint).congr ?union
    case disjoint =>
      rintro px py ⟨col, hcol, hpx, -⟩ ⟨hpx', -⟩
      have := wrapColumn_inj (x0 := x0) (by omega) (by omega) (hpx.symm.trans hpx')
      omega
    case union => simp only [Nat.exists_lt_succ_right, implies_true]

theorem flips_drawRow (r : Nat) (b : Byte) (d : Drawing) :
    Flips (fun px py => ∃ col < 8, UnderBit x0 y0 r b col px py) d (drawRow x0 y0 r b d) :=
  flips_columns r b d (Nat.le_refl 8)

/-- The pixel is under a set bit of the sprite bytes `bs` drawn from row `r` down. -/
def UnderRows (x0 y0 : Byte) (r : Nat) (bs : List Byte) (px : Column) (py : Row) : Prop :=
  ∃ (j : Nat) (hj : j < bs.length), ∃ col < 8, UnderBit x0 y0 (r + j) bs[j] col px py

theorem underRows_cons {r : Nat} {b : Byte} {bs : List Byte} {px : Column} {py : Row} :
    UnderRows x0 y0 r (b :: bs) px py ↔
      (∃ col < 8, UnderBit x0 y0 r b col px py) ∨ UnderRows x0 y0 (r + 1) bs px py := by
  constructor
  · rintro ⟨j, hj, hcol⟩
    cases j with
    | zero => exact .inl hcol
    | succ j => exact .inr ⟨j, Nat.lt_of_succ_lt_succ hj, by rwa [Nat.add_right_comm]⟩
  · rintro (hcol | ⟨j, hj, hcol⟩)
    · exact ⟨0, Nat.zero_lt_succ _, hcol⟩
    · exact ⟨j + 1, Nat.succ_lt_succ hj, by rwa [Nat.add_right_comm] at hcol⟩

/-- The sprite rows flip the pixels under their set bits, each once, while they are no more than the screen has. -/
theorem flips_drawRows {r : Nat} {bs : List Byte} (d : Drawing) (hfit : r + bs.length ≤ 32) :
    Flips (UnderRows x0 y0 r bs) d (drawRows x0 y0 r bs d) := by
  induction bs generalizing r d with
  | nil => exact Flips.of_empty fun px py ⟨j, hj, _⟩ => Nat.not_lt_zero j hj
  | cons b bs ih =>
    rw [List.length_cons] at hfit
    refine ((flips_drawRow r b d).trans (ih _ (by omega)) ?disjoint).congr fun px py => underRows_cons.symm
    case disjoint =>
      rintro px py ⟨col, -, -, hpy, -⟩ ⟨j, hj, col', -, -, hpy', -⟩
      have := wrapRow_inj (y0 := y0) (by omega) (by omega) (hpy.symm.trans hpy')
      omega

end

/-! ### The instruction -/

/-- The pixels under the rows read from I are those the sprite covers. -/
theorem underRows_spriteRows (x y : RegIndex) (n : Fin 16) (s : State) (px : Column) (py : Row) :
    UnderRows (s.reg x) (s.reg y) 0 (spriteRows s n.val) px py ↔ SpriteCovers s x y n px py := by
  simp only [UnderRows, UnderBit, SpriteCovers, spriteRows, spriteBit, wrapColumn, wrapRow, List.length_ofFn,
    Fin.ext_iff, List.getElem_ofFn, Nat.zero_add]
  constructor
  · rintro ⟨r, hr, col, hcol, hpixel⟩
    exact ⟨r, col, hr, hcol, hpixel⟩
  · rintro ⟨r, col, hr, hcol, hpixel⟩
    exact ⟨r, hr, col, hcol, hpixel⟩

/-- Settles O37: VF is written after the drawing, from its collision. -/
theorem drawFlipsExactlyTheSprite : Obligations.DrawFlipsExactlyTheSprite := by
  intro x y n s hfit
  have hlen : (spriteRows s n.val).length = n.val := List.length_ofFn
  have hflips := (flips_drawRows (x0 := s.reg x) (y0 := s.reg y) (r := 0) (s.fb, false) (by omega)).congr
    (underRows_spriteRows x y n s)
  refine ⟨_, execDrw_ok x y n (hfit.imp_left fun hn => congrArg Fin.val hn),
    fun px py => ⟨hflips.inside px py, hflips.outside px py⟩, ?hit, ?miss, advanced_of_pc rfl,
    fun r hr => State.reg_setReg_ne _ hr _, fun _ => rfl, rfl, ⟨rfl, rfl⟩, ⟨rfl, rfl⟩, rfl, rfl⟩
  case hit =>
    intro hset
    refine (State.reg_setReg_same _ flagReg _).trans ?_
    rw [hflips.collision.mpr (.inr hset)]
    rfl
  case miss =>
    intro hclear
    refine (State.reg_setReg_same _ flagReg _).trans ?_
    rw [Bool.eq_false_iff.mpr fun hc => (hflips.collision.mp hc).elim Bool.false_ne_true hclear]
    rfl

/-- Settles O38: the second draw covers the same pixels, so it flips each of them back, and it meets a set pixel where
the first set one. -/
theorem drawTwiceRestoresTheScreen : Obligations.DrawTwiceRestoresTheScreen := by
  intro x y n s hx hy hfit
  obtain ⟨t, ht, hfb, -, -, -, hregs, hmem, hi, -⟩ := drawFlipsExactlyTheSprite x y n s hfit
  obtain ⟨u, hu, hfb', hhit, hmiss, -⟩ := drawFlipsExactlyTheSprite x y n t (by rwa [hi])
  have hcovers (px : Column) (py : Row) : SpriteCovers t x y n px py ↔ SpriteCovers s x y n px py := by
    simp only [SpriteCovers, hregs x hx, hregs y hy, hi, hmem _]
  have hseen : (∃ px py, SpriteCovers t x y n px py ∧ t.fb.pixel px py = true) ↔
      ∃ px py, SpriteCovers s x y n px py ∧ s.fb.pixel px py = false := by
    refine exists₂_congr fun px py => (and_congr_left' (hcovers px py)).trans (and_congr_right fun hc => ?_)
    rw [(hfb px py).1 hc, Bool.not_eq_true']
  refine ⟨t, u, ht, hu, Framebuffer.ext_pixel fun px py => ?restored, ?reported⟩
  case restored =>
    by_cases hc : SpriteCovers s x y n px py
    · rw [(hfb' px py).1 ((hcovers px py).mpr hc), (hfb px py).1 hc, Bool.not_not]
    · rw [(hfb' px py).2 (hc ∘ (hcovers px py).mp), (hfb px py).2 hc]
  case reported =>
    rw [← hseen]
    refine ⟨fun hflag => ?_, hhit⟩
    by_contra hnone
    rw [hmiss hnone] at hflag
    exact absurd hflag (by decide)

end Sys2Proof.Machine
